-- ==== Sys2Proof/Word.lean ====
section
/-!
DEFINITION. The value types of the block: bytes, 32-bit registers, byte strings and bit strings
(spec 00_scope R11 to R14, R17).
-/

namespace Sys2Proof

/-- One byte (R14). -/
abbrev Byte := BitVec 8

/-- One 32-bit register value (10_state R20). -/
abbrev Word32 := BitVec 32

/-- A byte string, first byte first (R14). The spec's "word" of a wordlist is such a string (R17). -/
abbrev Bytes := List Byte

/-- A bit string, first bit first; the first bit is the most significant (R13). -/
abbrev Bits := List Bool

/-- Eight consecutive registers holding 32 bytes: the entropy buffer (10_state R28) or one word slot (R30). -/
abbrev Block := Vector Word32 8

/-- A language tag. The source gives it no format (91_not_in_source, 10_state part), so it is only a label:
it is compared and handed to `LANG_CODE`, and no rule looks inside it. DESIGN CHOICE, safe (log 13). -/
abbrev LangTag := String

end Sys2Proof
end

