-- ==== Sys2Proof/Config.lean ====
section
/-!
DEFINITION. The configuration of the block (00_scope R10, 10_state R22): what the platform attaches, and the free
values. Every constant here is opaque and without a body: no proof can see what it is, so a claim holds whatever it is.
-/

namespace Sys2Proof

/-- The wordlist port's record (40_datapath R135). Its fourth component, the case folding `WL.fold`, is
`Sys2Proof.Machine.fold`: a function is no plain data, so its open part is `Config.foldRun`, taken per language tag. -/
structure Wordlist where
  words : List Bytes
  tag : LangTag
  available : Bool
deriving DecidableEq, Repr, Inhabited

/-- The wordlist the platform attaches before the first command (70_reset R265, I8): OPEN parameter `WL`. -/
opaque Config.wordlist : Wordlist

/-- `SHA256`: from a byte string to its 32-byte digest (R123, I10): OPEN parameter. -/
opaque Config.sha256 : Bytes → Vector Byte 32

/-- `LANG_CODE`: what the LANG register shows for a language tag (10_state R27, I9): OPEN parameter. -/
opaque Config.langCode : LangTag → Word32

/-- The open part of `WL.fold` (R137, I7): `Config.foldRun tag w k` is what the `k`-th maximal run of non-ASCII bytes
(counted from 0) of the word `w` folds to under the wordlist with that tag. -/
opaque Config.foldRun : LangTag → Bytes → Nat → Bytes

/-- `BASE`: where the register window starts on the host bus (20_memory R60, I15): OPEN parameter. -/
opaque Config.base : Nat

/-- Free value (41_encode R171, I11): the `k`-th unscripted answer of the random source, `none` for a failure; a draw of
`L` bytes takes the first `L`. -/
opaque Config.randomDraw : Nat → Option (Vector Byte 32)

/-- Free value (20_memory R68, I1): what a host read of a result or data register returns while BUSY = 1. -/
opaque Config.busyRead : Nat → Word32

end Sys2Proof
end

