-- ==== Sys2Proof/Machine/Bits.lean ====
section
/-!
DEFINITION. Bit strings and byte strings (00_scope R13, R14): the notation the datapath is written in.
-/

namespace Sys2Proof.Machine

/-- `val(s)`: the unsigned value of a bit string, its first bit the most significant (R13). -/
def val (s : Bits) : Nat := s.foldl (fun acc b => 2 * acc + b.toNat) 0

/-- `bits_N(v)`: the N-bit string whose value is v, for v < 2^N (R13). -/
def bitsN : Nat → Nat → Bits
  | 0, _ => []
  | n + 1, v => v.testBit n :: bitsN n v

/-- `bytesToBits(b)`: most significant bit first in each byte, in byte order (R14, 40_datapath R121). -/
def bytesToBits (b : Bytes) : Bits := b.flatMap fun x => bitsN 8 x.toNat

/-- `n` consecutive groups of `k` bits from the front of a bit string (40_datapath R125: "consecutive 11-bit groups"). -/
def groups (k : Nat) : Nat → Bits → List Bits
  | 0, _ => []
  | n + 1, s => s.take k :: groups k n (s.drop k)

/-- `bitsToBytes(s)`, for |s| a multiple of 8: byte k is the value of bits 8k to 8k+7 (R14, 40_datapath R122). -/
def bitsToBytes (s : Bits) : Bytes := (groups 8 (s.length / 8) s).map fun g => BitVec.ofNat 8 (val g)

end Sys2Proof.Machine
end

