-- ==== Sys2Proof/Machine/Datapath.lean ====
section
/-!
DEFINITION. The entropy_bit_packer and the checksum_concat_engine (40_datapath R120 to R132, 41_encode R161): lengths,
checksum, splice and split.
-/

namespace Sys2Proof.Machine

/-- The supported entropy lengths in bytes (R120). -/
def supportedBytes (len : Nat) : Bool := [16, 20, 24, 28, 32].contains len

/-- The supported word counts (R120). -/
def supportedWords (n : Nat) : Bool := [12, 15, 18, 21, 24].contains n

/-- `csOfBytes(L) = (8*L) div 32` (R120). -/
def csOfBytes (len : Nat) : Nat := (8 * len) / 32

/-- `csOfWords(n) = 4 + (n - 12) div 3` (R120). -/
def csOfWords (n : Nat) : Nat := 4 + (n - 12) / 3

/-- `wordsOfBytes(L) = (8*L + csOfBytes(L)) div 11` (R120). -/
def wordsOfBytes (len : Nat) : Nat := (8 * len + csOfBytes len) / 11

/-- `bytesOfWords(n) = (11*n - csOfWords(n)) div 8` (R120). -/
def bytesOfWords (n : Nat) : Nat := (11 * n - csOfWords n) / 8

/-- `h0`: the first byte of the digest, the only one consulted (R123, R124). -/
def hashByte (b : Bytes) : Byte := (Config.sha256 b)[0]

/-- `checksum(b, nBits)`: the nBits most significant bits of h0, most significant first (R123). -/
def checksum (b : Bytes) (nBits : Nat) : Bits := (bitsN 8 (hashByte b).toNat).take nBits

/-- `cval(b, nBits) = h0 >> (8 - nBits)` (R123). -/
def cval (b : Bytes) (nBits : Nat) : Nat := (hashByte b).toNat >>> (8 - nBits)

/-- What `encodeCore` computes (41_encode R161). -/
structure Encoded where
  n : Nat
  cs : Nat
  c : Nat
  chunks : List Nat
deriving DecidableEq, Repr

/-- The spliced string S: the entropy bits followed by the checksum bits (R125). -/
def splice (ent : Bytes) : Bits := bytesToBits ent ++ checksum ent (csOfBytes ent.length)

/-- `encodeCore(ent)` (41_encode R161): the checksum, and the consecutive 11-bit groups of S as numbers. -/
def encodeCore (ent : Bytes) : Encoded where
  n := wordsOfBytes ent.length
  cs := csOfBytes ent.length
  c := cval ent (csOfBytes ent.length)
  chunks := (groups 11 (wordsOfBytes ent.length) (splice ent)).map val

/-- What `split` gives (R128): the reconstructed entropy and the received checksum value. -/
structure SplitResult where
  ent : Bytes
  c : Nat
deriving DecidableEq, Repr

/-- The string of the indices, each as an 11-bit group, in word order (R128). -/
def indexBits (idx : List Nat) : Bits := idx.flatMap (bitsN 11)

/-- `split(idx)` (R128): the leading 11n - CS bits are the entropy, the trailing CS bits the received checksum. -/
def split (idx : List Nat) : SplitResult where
  ent := bitsToBytes ((indexBits idx).take (11 * idx.length - csOfWords idx.length))
  c := val ((indexBits idx).drop (11 * idx.length - csOfWords idx.length))

end Sys2Proof.Machine
end

