-- ==== Sys2Proof/Syntax.lean ====
section
/-!
DEFINITION. The commands of the block (30_encoding R91): one constructor per row of the opcode table.
-/

namespace Sys2Proof

/-- A command. The length operand is the unsigned number of the LEN field (R93), a natural number as in the
assembler's syntax (R101); `WellFormed` says which numbers the field can hold. -/
inductive Instr where
  /-- `ENCODE L`: encode the first `L` bytes of the entropy buffer (41_encode R160). -/
  | encode (len : Nat)
  /-- `ENCODE_RANDOM wc`: draw entropy for `wc` words and encode it (41_encode R170). -/
  | encodeRandom (len : Nat)
  /-- `DECODE.V n` (`verify = true`) and `DECODE.NV n` (`verify = false`): decode the first `n` word slots (42_decode R190). -/
  | decode (len : Nat) (verify : Bool)
deriving DecidableEq, Repr

end Sys2Proof
end

