-- ==== Sys2Proof/WellFormed.lean ====
section
/-!
DEFINITION. Which command terms the command word can hold (30_encoding R93, R101).
-/

namespace Sys2Proof

/-- The length operand of a command. -/
def Instr.len : Instr → Nat
  | .encode l => l
  | .encodeRandom l => l
  | .decode l _ => l

/-- The one check of a command term: its length operand is in 0..255; "any other operand is an assembly error, not an
encoding" (R101). Whether the length is a supported one is decided at execution, not here (R93). -/
abbrev Instr.WellFormed (i : Instr) : Prop := i.len < 256

end Sys2Proof
end

