-- ==== Sys2Proof/Decode.lean ====
section
/-!
DEFINITION. The command word (30_encoding R90 to R101): decoding, total on every 32-bit word and rejecting by name, and
the assembler's encoding.
-/

namespace Sys2Proof

/-- `r[hi:lo]`: the bits hi..lo of a register read as an unsigned number (00_scope R12). -/
def field (r : Word32) (hi lo : Nat) : Nat := (r.toNat >>> lo) % 2 ^ (hi + 1 - lo)

/-- Why a word is Illegal (30_encoding R95, R96); the block reports the same IllegalCommand for each. -/
inductive IllegalReason where
  /-- a bit of RSV0 [7:5] or RSV1 [31:16] is set (R94) -/
  | reservedBits
  /-- VERIFY is set on ENCODE or ENCODE_RANDOM (R92) -/
  | verifySet
  /-- OP is 0x0 or 0x4 to 0xF (R91) -/
  | reservedOp
deriving DecidableEq, Repr

/-- The outcome of decoding a word: exactly one for every word (R95). -/
inductive Decoded where
  | illegal (reason : IllegalReason)
  | command (i : Instr)
deriving DecidableEq, Repr

/-- `Decode(c)` (30_encoding R95). -/
def decode (c : Word32) : Decoded :=
  if field c 7 5 ≠ 0 ∨ field c 31 16 ≠ 0 then .illegal .reservedBits
  else if field c 3 0 = 0x1 then
    if field c 4 4 = 0 then .command (.encode (field c 15 8)) else .illegal .verifySet
  else if field c 3 0 = 0x2 then
    if field c 4 4 = 0 then .command (.encodeRandom (field c 15 8)) else .illegal .verifySet
  else if field c 3 0 = 0x3 then .command (.decode (field c 15 8) (field c 4 4 == 1))
  else .illegal .reservedOp

/-- The word a command assembles to (30_encoding R101). -/
def encode : Instr → Word32
  | .encode l => BitVec.ofNat 32 (0x00000001 ||| (l <<< 8))
  | .encodeRandom n => BitVec.ofNat 32 (0x00000002 ||| (n <<< 8))
  | .decode n true => BitVec.ofNat 32 (0x00000013 ||| (n <<< 8))
  | .decode n false => BitVec.ofNat 32 (0x00000003 ||| (n <<< 8))

/-- The command word of a table row given by its low `nbits` bits, the bits above them 0: a command is one 32-bit word
(30_encoding R97). -/
def tableWord (nbits w : Nat) : Word32 := BitVec.ofNat 32 (w % 2 ^ nbits)

/-- The command the decoder reads from a word of the opcode table, if it is a legal one. -/
def decodeTableWord (nbits w : Nat) : Option Instr :=
  match decode (tableWord nbits w) with
  | .command i => some i
  | .illegal _ => none

end Sys2Proof
end

