-- ==== Sys2Proof/Machine/State.lean ====
section
/-!
DEFINITION. The state of one block instance (10_state R20), its reset value (10_state R36, 70_reset R260), the events
the environment can cause, and the reasons a step can stop.
-/

namespace Sys2Proof.Machine

/-- The width of a host access in bytes: 1, 2, 4 or 8 (20_memory R65). -/
inductive Width where
  | w1
  | w2
  | w4
  | w8
deriving DecidableEq, Repr

/-- What the environment does next. The relative order of host accesses, resets and the engine's step is free
(20_memory R73, 60_exceptions R241), so a list of these is one schedule and every schedule is such a list. -/
inductive Input where
  /-- a host read at a byte offset of the window (20_memory R61, R68) -/
  | read (off : BitVec 12) (width : Width)
  /-- a host write of a 32-bit value at a byte offset of the window (20_memory R61, R69) -/
  | write (off : BitVec 12) (width : Width) (v : Word32)
  /-- the platform asserts reset (70_reset R260) -/
  | reset
  /-- the engine is given the turn: it takes its step if it has one, that is if BUSY = 1 (20_memory R73) -/
  | engine
deriving DecidableEq, Repr

/-- The block's answer to one host access (60_exceptions R236). -/
inductive Response where
  /-- a read that completed, with its data -/
  | readOk (v : Word32)
  /-- a write that completed, whether it took effect, was ignored or was dropped (20_memory R69) -/
  | writeOk
  /-- a bus error: unmapped, misaligned or not 4 bytes wide -/
  | busError
deriving DecidableEq, Repr

/-- Why the machine can stop with a fault: never. The spec has a completion or a bus response for every case
(60_exceptions R230 to R236), so this type has no constructor (log 17, safe). -/
inductive Fault where
deriving DecidableEq, Repr

/-- Why a step can be refused. -/
inductive Refusal where
  /-- An instruction of the table without a meaning in this model. Raised by nothing: every row has its meaning.
  Safe: a refused step proves nothing about the block. -/
  | notModelled (mnemonic : String)
deriving DecidableEq, Repr

/-- The state of the block. The first eight fields are the registers of 10_state R20; `wl` is the attached wordlist,
configuration that no step writes (R22); the last four are the model's own view of the environment. -/
structure State where
  /-- CMD (R23): the last accepted command word. -/
  cmd : Word32
  /-- STATUS (R24): BUSY [0], DONE [1], ERR [2], VALID [3]. -/
  status : Word32
  /-- ERRINFO (R25): ERRCODE [3:0], ERRPOS [12:8]. -/
  errinfo : Word32
  /-- RESULT (R26): WCOUNT [4:0], ENTLEN [13:8], CSLEN [19:16], CSVAL [31:24]. -/
  result : Word32
  /-- LANG (R27). -/
  lang : Word32
  /-- ENT_W[0..7] (R28): the entropy buffer. -/
  entW : Block
  /-- IDX[0..23] (R29): the word indices of the last result, INDEX [10:0]. -/
  idx : Vector Word32 24
  /-- WORD_W[0..23][0..7] (R30): the word slots. -/
  wordW : Vector Block 24
  /-- WL (R22, 40_datapath R135): the attached wordlist. DESIGN CHOICE, safe (log 3). -/
  wl : Wordlist
  /-- The random source's answers already supplied by the environment, next one first (41_encode R171). When the list is
  empty a draw is the free value `Config.randomDraw`. DESIGN CHOICE, safe (log 7). -/
  rngScript : List (Option (Vector Byte 32))
  /-- How many free values have been taken. DESIGN CHOICE, safe (log 9). -/
  draws : Nat
  /-- The environment's events to come, oldest first (20_memory R73). DESIGN CHOICE, safe (log 1). -/
  inputs : List Input
  /-- The answers to the host accesses made so far, oldest first. DESIGN CHOICE, safe (log 2). -/
  responses : List Response
deriving DecidableEq, Repr

/-- The state right after reset: every register is zero (10_state R36, 70_reset R260). The wordlist is whatever the
platform attached (R264, R265); the environment's lists are empty (log 1, 2, 7, 9). -/
def State.reset : State where
  cmd := 0
  status := 0
  errinfo := 0
  result := 0
  lang := 0
  entW := .replicate 8 0
  idx := .replicate 24 0
  wordW := .replicate 24 (.replicate 8 0)
  wl := Config.wordlist
  rngScript := []
  draws := 0
  inputs := []
  responses := []

end Sys2Proof.Machine
end

