-- ==== Sys2Proof/Machine/Flags.lean ====
section
/-!
DEFINITION. The fields of STATUS, ERRINFO, RESULT and IDX (10_state R24 to R29), the error codes
(60_exceptions R220), and the values the engine writes into these registers.
-/

namespace Sys2Proof.Machine

/-- STATUS.BUSY [0]. -/
def State.busy (s : State) : Bool := s.status.getLsbD 0

/-- STATUS.DONE [1]. -/
def State.done (s : State) : Bool := s.status.getLsbD 1

/-- STATUS.ERR [2]. -/
def State.err (s : State) : Bool := s.status.getLsbD 2

/-- STATUS.VALID [3]. -/
def State.valid (s : State) : Bool := s.status.getLsbD 3

/-- ERRINFO.ERRCODE [3:0]. -/
def State.errcode (s : State) : Nat := field s.errinfo 3 0

/-- ERRINFO.ERRPOS [12:8]. -/
def State.errpos (s : State) : Nat := field s.errinfo 12 8

/-- RESULT.WCOUNT [4:0]. -/
def State.wcount (s : State) : Nat := field s.result 4 0

/-- RESULT.ENTLEN [13:8]. -/
def State.entlen (s : State) : Nat := field s.result 13 8

/-- RESULT.CSLEN [19:16]. -/
def State.cslen (s : State) : Nat := field s.result 19 16

/-- RESULT.CSVAL [31:24]. -/
def State.csval (s : State) : Nat := field s.result 31 24

/-- IDX[i].INDEX [10:0]. -/
def State.index (s : State) (i : Nat) : Nat := field (s.idx[i]?.getD 0) 10 0

/-- STATUS after acceptance: BUSY alone (20_memory R72). -/
def statusBusy : Word32 := 0b0001

/-- STATUS after a success: DONE and VALID (60_exceptions R232). -/
def statusSuccess : Word32 := 0b1010

/-- STATUS after an error: ERR alone (60_exceptions R231). -/
def statusError : Word32 := 0b0100

/-- The command errors (60_exceptions R220). -/
inductive ErrCode where
  | invalidEntropyLength
  | invalidWordCount
  | unknownWord
  | checksumMismatch
  | wordIndexOutOfRange
  | randomSourceFailure
  | wordlistUnavailable
  | illegalCommand
deriving DecidableEq, Repr

/-- The number written to ERRINFO.ERRCODE (60_exceptions R220); 9 to 15 are never written (R229). -/
def ErrCode.code : ErrCode → Nat
  | .invalidEntropyLength => 1
  | .invalidWordCount => 2
  | .unknownWord => 3
  | .checksumMismatch => 4
  | .wordIndexOutOfRange => 5
  | .randomSourceFailure => 6
  | .wordlistUnavailable => 7
  | .illegalCommand => 8

/-- The ERRINFO value of an error: `code | (pos << 8)` (60_exceptions R231). -/
def errinfoOf (e : ErrCode) (pos : Nat) : Word32 := BitVec.ofNat 32 (e.code ||| (pos <<< 8))

/-- The RESULT value of a success: `n | (L << 8) | (CS << 16) | (c << 24)` (41_encode R162). -/
def resultOf (n len cs c : Nat) : Word32 := BitVec.ofNat 32 (n ||| (len <<< 8) ||| (cs <<< 16) ||| (c <<< 24))

end Sys2Proof.Machine
end

