-- ==== Sys2Proof/Machine/Operands.lean ====
section
/-!
DEFINITION. The operand forms of the commands: byte strings packed into registers (10_state R28, R30, R31,
20_memory R66) and the entropy and words the engine reads from them.
-/

namespace Sys2Proof.Machine

/-- A register array given element by element. -/
def tabulate {α : Type} (n : Nat) (f : Nat → α) : Vector α n := ⟨((List.range n).map f).toArray, by simp⟩

/-- Byte m (0..3) of a register, byte 0 in bits [31:24]: `r[31-8m : 24-8m]` (20_memory R66). -/
def byteOf (r : Word32) (m : Nat) : Byte := r.extractLsb' (24 - 8 * m) 8

/-- Four bytes packed big-endian into a register (20_memory R66, R67). -/
def packWord (b0 b1 b2 b3 : Byte) : Word32 := b0 ++ b1 ++ b2 ++ b3

/-- Byte k (0..31) of eight registers: `R[k div 4][31 - 8*(k mod 4) : 24 - 8*(k mod 4)]` (10_state R28, R30). -/
def blockByte (blk : Block) (k : Nat) : Byte := byteOf (blk[k / 4]?.getD 0) (k % 4)

/-- The 32 bytes of eight registers, in order. -/
def blockBytes (blk : Block) : Bytes := (List.range 32).map (blockByte blk)

/-- Eight registers whose byte k is `b[k]` for k < |b| and 0x00 beyond (10_state R31, 41_encode R162). -/
def blockOfBytes (b : Bytes) : Block :=
  tabulate 8 fun j => packWord (b.getD (4 * j) 0) (b.getD (4 * j + 1) 0) (b.getD (4 * j + 2) 0) (b.getD (4 * j + 3) 0)

/-- The word held in a slot: the bytes before the first 0x00, all 32 if there is none (10_state R31). -/
def slotWord (blk : Block) : Bytes := (blockBytes blk).takeWhile (· ≠ 0)

/-- `ENT[0..L-1]`: the first L bytes of the entropy buffer (10_state R28). -/
def entBytes (s : State) (len : Nat) : Bytes := (blockBytes s.entW).take len

/-- `WORD[i]`: the word held in slot i (10_state R31). -/
def wordAtSlot (s : State) (i : Nat) : Bytes := slotWord (s.wordW[i]?.getD (.replicate 8 0))

/-- `WORD[0..n-1]`: the words the first n slots hold (42_decode R190). -/
def slotWords (s : State) (n : Nat) : List Bytes := (List.range n).map (wordAtSlot s)

end Sys2Proof.Machine
end

