-- ==== Sys2Proof/Machine/Wordlist.lean ====
section
/-!
DEFINITION. The word_index_mapper (40_datapath R135 to R141): case folding, lookup and validity of the attached wordlist.
-/

namespace Sys2Proof.Machine

/-- An ASCII byte: 0x00..0x7F (R137). -/
def isAscii (b : Byte) : Bool := decide (b.toNat < 0x80)

/-- ASCII folding of one byte: 'A'..'Z' to 'a'..'z', every other byte unchanged (R137). -/
def asciiLower (b : Byte) : Byte := if 0x41 ≤ b.toNat ∧ b.toNat ≤ 0x5A then b + 0x20 else b

/-- Fold a word byte by byte: an ASCII byte by `asciiLower`, the k-th maximal run of non-ASCII bytes to `img k`.
`inRun` says that the byte before was a non-ASCII one. -/
def foldRuns (img : Nat → Bytes) : Nat → Bool → Bytes → Bytes
  | _, _, [] => []
  | k, inRun, b :: bs =>
    if isAscii b then asciiLower b :: foldRuns img (if inRun then k + 1 else k) false bs
    else if inRun then foldRuns img k true bs
    else img k ++ foldRuns img k true bs

/-- One pass of the folding of the wordlist with this tag: ASCII bytes by R137, non-ASCII runs by the OPEN parameter. -/
def foldPass (tag : LangTag) (w : Bytes) : Bytes := foldRuns (Config.foldRun tag (w.map asciiLower)) 0 false w

/-- `WL.fold` (R137). The rule assumes that folding is idempotent: a pass whose result a second pass would change again is
not taken, and the word then folds in its ASCII bytes alone. DEDUCED, safe (log 5). -/
def fold (tag : LangTag) (w : Bytes) : Bytes :=
  if foldPass tag (foldPass tag w) = foldPass tag w then foldPass tag w else w.map asciiLower

/-- `wordAt(i)`: the i-th word of the list (R135); defined for every 11-bit i when the list is valid (R138). -/
def wordAt (wl : Wordlist) (i : Nat) : Bytes := wl.words.getD i []

/-- `indexOf(w)`: the smallest i < 2048 whose word is the folded w (R136). -/
def indexOf (wl : Wordlist) (w : Bytes) : Option Nat :=
  (wl.words.take 2048).findIdx? fun x => x == fold wl.tag w

/-- The answer of `lookupAll` (R139). -/
inductive Lookup where
  /-- the word at this 1-based position has no index -/
  | unknownWord (pos : Nat)
  | ok (idx : List Nat)
deriving DecidableEq, Repr

/-- `lookupAll`, the first word standing at 1-based position `pos` (R139). -/
def lookupFrom (wl : Wordlist) : Nat → List Bytes → Lookup
  | _, [] => .ok []
  | pos, w :: ws =>
    match indexOf wl w with
    | none => .unknownWord pos
    | some i =>
      match lookupFrom wl (pos + 1) ws with
      | .unknownWord p => .unknownWord p
      | .ok rest => .ok (i :: rest)

/-- `lookupAll(w_0..w_(n-1))` (R139): the indices in order, or the first unmatched position, counted from 1. -/
def lookupAll (wl : Wordlist) (ws : List Bytes) : Lookup := lookupFrom wl 1 ws

/-- A word fits a slot: non-empty, no byte 0x00, at most 32 bytes (R141, condition 4). -/
def fitsSlot (w : Bytes) : Bool := decide (w ≠ []) && decide (0 ∉ w) && decide (w.length ≤ 32)

/-- `wlValid(WL)` (R141): available, exactly 2048 words, pairwise distinct, each fits a slot and is its own folding. -/
def wlValid (wl : Wordlist) : Bool :=
  wl.available && decide (wl.words.length = 2048) && decide wl.words.Nodup &&
    wl.words.all fitsSlot && wl.words.all fun w => decide (fold wl.tag w = w)

end Sys2Proof.Machine
end

