-- ==== Sys2Proof/Machine/Ops.lean ====
section
/-!
DEFINITION. The shared operations of the engine: the two completions (60_exceptions R231, R232), the commit of a result
(41_encode R162, 42_decode R191), the random draw (41_encode R171), command acceptance (20_memory R72) and reset
(70_reset R260).
-/

namespace Sys2Proof.Machine

/-- `raise Err(code, pos)`, the block's exception entry (60_exceptions R231): STATUS and ERRINFO are written, nothing else.
The block has no handler, saved register or return (R233). -/
def raiseErr (e : ErrCode) (pos : Nat) (s : State) : State :=
  { s with status := statusError, errinfo := errinfoOf e pos }

/-- `complete()` (60_exceptions R232). -/
def complete (s : State) : State := { s with status := statusSuccess, errinfo := 0 }

/-- The result registers, written all at once (`commitEncode` of 41_encode R162 and `commitDecode` of 42_decode R191):
the indices and their words in slots 0..n-1, zero and empty beyond, the entropy padded with zero bytes, RESULT and LANG. -/
def commit (ent : Bytes) (n cs c : Nat) (idx : List Nat) (s : State) : State :=
  { s with
    idx := tabulate 24 fun i => if i < n then BitVec.ofNat 32 (idx.getD i 0) else 0
    wordW := tabulate 24 fun i => if i < n then blockOfBytes (wordAt s.wl (idx.getD i 0)) else .replicate 8 0
    entW := blockOfBytes ent
    result := resultOf n ent.length cs c
    lang := Config.langCode s.wl.tag }

/-- `RNG(L)` (41_encode R171): the next answer of the random source, `none` for a failure, else any L bytes. It is the
next scripted answer if the environment has supplied one, else a free value. -/
def drawRandom (len : Nat) (s : State) : Option Bytes × State :=
  match s.rngScript with
  | a :: rest => (a.map fun r => r.toList.take len, { s with rngScript := rest })
  | [] => ((Config.randomDraw s.draws).map fun r => r.toList.take len, { s with draws := s.draws + 1 })

/-- Steps 1 to 5 of the source's `encode` on the entropy `ent`, and the completion (41_encode R160, R170). The check for
WordIndexOutOfRange is kept as an arm that no state takes (60_exceptions R225, log 14). -/
def encodeEntropy (ent : Bytes) (s : State) : State :=
  if (encodeCore ent).chunks.any (fun x => decide (2048 ≤ x)) then raiseErr .wordIndexOutOfRange 0 s
  else complete (commit ent (encodeCore ent).n (encodeCore ent).cs (encodeCore ent).c (encodeCore ent).chunks s)

/-- `AcceptCommand(v)` (20_memory R72): dropped while BUSY = 1. -/
def acceptCommand (v : Word32) (s : State) : State :=
  if s.busy then s else { s with cmd := v, status := statusBusy, errinfo := 0 }

/-- Reset (70_reset R260, R261): every register becomes zero and a command in flight is abandoned. Configuration (R264)
and the environment's own lists are no registers and stay (log 21). -/
def resetRegisters (s : State) : State :=
  { s with
    cmd := 0, status := 0, errinfo := 0, result := 0, lang := 0
    entW := .replicate 8 0, idx := .replicate 24 0, wordW := .replicate 24 (.replicate 8 0) }

end Sys2Proof.Machine
end

