-- ==== Sys2Proof/Machine/Bus.lean ====
section
/-!
DEFINITION. The register port (20_memory R60 to R72): the address map, host reads and host writes.
-/

namespace Sys2Proof.Machine

/-- A register of the window (20_memory R62). -/
inductive Reg where
  | cmd
  | status
  | errinfo
  | result
  | lang
  | ent (j : Fin 8)
  | idx (i : Fin 24)
  | word (i : Fin 24) (j : Fin 8)
deriving DecidableEq, Repr

/-- The byte offset of a register (20_memory R62). -/
def Reg.offset : Reg → Nat
  | .cmd => 0x000
  | .status => 0x004
  | .errinfo => 0x008
  | .result => 0x00C
  | .lang => 0x010
  | .ent j => 0x100 + 4 * j
  | .idx i => 0x200 + 4 * i
  | .word i j => 0x400 + 32 * i + 4 * j

/-- The register at a byte offset: none where the offset is unmapped or not a multiple of 4 (20_memory R62, R63, R65). -/
def regAt (off : Nat) : Option Reg :=
  if off % 4 ≠ 0 then none
  else if off = 0x000 then some .cmd
  else if off = 0x004 then some .status
  else if off = 0x008 then some .errinfo
  else if off = 0x00C then some .result
  else if off = 0x010 then some .lang
  else if h : 0x100 ≤ off ∧ off < 0x120 then some (.ent ⟨(off - 0x100) / 4, by omega⟩)
  else if h : 0x200 ≤ off ∧ off < 0x260 then some (.idx ⟨(off - 0x200) / 4, by omega⟩)
  else if h : 0x400 ≤ off ∧ off < 0x700 then
    some (.word ⟨(off - 0x400) / 32, by omega⟩ ⟨(off - 0x400) % 32 / 4, by omega⟩)
  else none

/-- The register a host access reaches; none where it gets a bus error: not 4 bytes wide, misaligned or unmapped
(20_memory R63, R65). -/
def target (off : BitVec 12) : Width → Option Reg
  | .w4 => regAt off.toNat
  | _ => none

/-- The register's 32-bit value with every reserved bit 0 (20_memory R68, 10_state R24, R25, R26, R29). -/
def readReg (s : State) : Reg → Word32
  | .cmd => s.cmd
  | .status => s.status &&& 0x0000000F
  | .errinfo => s.errinfo &&& 0x00001F0F
  | .result => s.result &&& 0xFF0F3F1F
  | .lang => s.lang
  | .ent j => s.entW.get j
  | .idx i => s.idx.get i &&& 0x000007FF
  | .word i j => (s.wordW.get i).get j

/-- The registers whose reads are draws while BUSY = 1 (20_memory R68, 70_reset R271). -/
def Reg.drawnWhileBusy : Reg → Bool
  | .cmd => false
  | .status => false
  | .errinfo => false
  | .result => true
  | .lang => true
  | .ent _ => true
  | .idx _ => true
  | .word _ _ => true

/-- The bus response is recorded for the host. -/
def respond (r : Response) (s : State) : State := { s with responses := s.responses ++ [r] }

/-- `HostRead(off)` (20_memory R68): no register changes; while BUSY = 1 a result or data register reads as a free value. -/
def hostRead (off : BitVec 12) (width : Width) (s : State) : State :=
  match target off width with
  | none => respond .busError s
  | some r =>
    if s.busy && r.drawnWhileBusy then
      respond (.readOk (Config.busyRead s.draws)) { s with draws := s.draws + 1 }
    else respond (.readOk (readReg s r)) s

/-- The effect of a host write on the registers (20_memory R69, R72): CMD is acceptance, the read-only registers ignore
it, ENT_W and WORD_W take the value unless BUSY = 1. -/
def writeReg (r : Reg) (v : Word32) (s : State) : State :=
  match r with
  | .cmd => acceptCommand v s
  | .status => s
  | .errinfo => s
  | .result => s
  | .lang => s
  | .idx _ => s
  | .ent j => if s.busy then s else { s with entW := s.entW.set j v }
  | .word i j => if s.busy then s else { s with wordW := s.wordW.set i ((s.wordW.get i).set j v) }

/-- `HostWrite(off, v)` (20_memory R69). -/
def hostWrite (off : BitVec 12) (width : Width) (v : Word32) (s : State) : State :=
  match target off width with
  | none => respond .busError s
  | some r => respond .writeOk (writeReg r v s)

/-- The offset of a bus address in the window, if it lies in it: the address minus `BASE` (20_memory R60, R61). -/
def busOffset (addr : Nat) : Option (BitVec 12) :=
  if Config.base ≤ addr ∧ addr < Config.base + 4096 then some (BitVec.ofNat 12 (addr - Config.base)) else none

end Sys2Proof.Machine
end

