-- ==== Sys2Proof/Machine/DecodeCmd.lean ====
section
/-!
DEFINITION. The decode family (42_decode): DECODE, with and without verification.
-/

namespace Sys2Proof.Machine

/-- The last steps of DECODE on the looked-up indices: split, the checksum comparison if `verify`, and the commit
(42_decode R190, R191, 40_datapath R132). -/
def decodeIndices (n : Nat) (verify : Bool) (idx : List Nat) (s : State) : State :=
  if verify ∧ (split idx).c ≠ cval (split idx).ent (csOfWords n) then raiseErr .checksumMismatch 0 s
  else complete (commit (split idx).ent n (csOfWords n) (split idx).c idx s)

/-- DECODE (42_decode R190): the count check, the wordlist check, the lookup of `WORD[0..n-1]` in word order, then
`decodeIndices`. -/
def execDecode (n : Nat) (verify : Bool) (s : State) : Host.Outcome State Fault Refusal :=
  if supportedWords n = false then .next (raiseErr .invalidWordCount 0 s)
  else if wlValid s.wl = false then .next (raiseErr .wordlistUnavailable 0 s)
  else
    match lookupAll s.wl (slotWords s n) with
    | .unknownWord p => .next (raiseErr .unknownWord p s)
    | .ok idx => .next (decodeIndices n verify idx s)

end Sys2Proof.Machine
end

