-- ==== Sys2Proof/Machine/Encode.lean ====
section
/-!
DEFINITION. The encode family (41_encode): ENCODE and ENCODE_RANDOM.
-/

namespace Sys2Proof.Machine

/-- ENCODE (41_encode R160): the length check, the wordlist check, then the encoding of `ENT[0..L-1]`. -/
def execEncode (len : Nat) (s : State) : Host.Outcome State Fault Refusal :=
  if supportedBytes len = false then .next (raiseErr .invalidEntropyLength 0 s)
  else if wlValid s.wl = false then .next (raiseErr .wordlistUnavailable 0 s)
  else .next (encodeEntropy (entBytes s len) s)

/-- ENCODE_RANDOM (41_encode R170): the count check, the wordlist check, the draw of (11*wc - CS) / 8 bytes, then the
encoding of the drawn bytes. -/
def execEncodeRandom (wc : Nat) (s : State) : Host.Outcome State Fault Refusal :=
  if supportedWords wc = false then .next (raiseErr .invalidWordCount 0 s)
  else if wlValid s.wl = false then .next (raiseErr .wordlistUnavailable 0 s)
  else
    match drawRandom (bytesOfWords wc) s with
    | (none, s') => .next (raiseErr .randomSourceFailure 0 s')
    | (some r, s') => .next (encodeEntropy r s')

end Sys2Proof.Machine
end

