-- ==== Sys2Proof/Machine/Dispatch.lean ====
section
/-!
DEFINITION. One arm per command: the meaning it runs.
-/

namespace Sys2Proof.Machine

def exec (i : Instr) (s : State) : Host.Outcome State Fault Refusal :=
  match i with
  | .encode len => Sys2Proof.Machine.execEncode len s
  | .encodeRandom len => Sys2Proof.Machine.execEncodeRandom len s
  | .decode len verify => Sys2Proof.Machine.execDecode len verify s

end Sys2Proof.Machine
end

