-- ==== Sys2Proof/Machine/Engine.lean ====
section
/-!
DEFINITION. Whose turn it is (20_memory R73): the engine's step on the command in CMD, the environment's events, and one
step of the whole machine.
-/

namespace Sys2Proof.Machine

/-- The engine's step (20_memory R72, 30_encoding R95, R96): decode the word in CMD and execute it; an Illegal word
completes with IllegalCommand. -/
def engineStep (s : State) : Host.Outcome State Fault Refusal :=
  match decode s.cmd with
  | .illegal _ => .next (raiseErr .illegalCommand 0 s)
  | .command i => exec i s

/-- The engine has a step exactly while BUSY = 1 (20_memory R73); without one nothing happens. -/
def engineTurn (s : State) : Host.Outcome State Fault Refusal :=
  if s.busy then engineStep s else .next s

/-- One event of the environment. -/
def takeInput (e : Input) (s : State) : Host.Outcome State Fault Refusal :=
  match e with
  | .read off width => .next (hostRead off width s)
  | .write off width v => .next (hostWrite off width v s)
  | .reset => .next (resetRegisters s)
  | .engine => engineTurn s

/-- One step: the environment's next event, and where it has none left the engine's turn, so that an accepted command
completes at the latest then (weak fairness, 20_memory R73; log 1). -/
def advance (s : State) : Host.Outcome State Fault Refusal :=
  match s.inputs with
  | [] => engineTurn s
  | e :: rest => takeInput e { s with inputs := rest }

/-- The state in which a command word has just been accepted (20_memory R72) and the engine has the next turn. -/
def placeCommand (v : Word32) (s : State) : State :=
  { s with
    cmd := v, status := statusBusy, errinfo := 0
    inputs := if s.inputs = [] then [] else .engine :: s.inputs }

end Sys2Proof.Machine
end

