-- ==== Sys2Proof/Machine/Step.lean ====
section
/-!
DEFINITION. The step of the machine, and how a command is placed to be run by the next one.
-/

namespace Sys2Proof.Machine

/-- One step of the block and its environment. -/
def step (s : State) : Host.Outcome State Fault Refusal := advance s

/-- The block fetches nothing (10_state R21): a command runs because its word has been accepted. This is `s` with the
word `w` of the opcode table accepted and the engine's turn next (log 10). -/
def State.withFetchWord (s : State) (nbits w : Nat) : State := placeCommand (tableWord nbits w) s

end Sys2Proof.Machine
end

