-- ==== Sys2Proof/Safety.lean ====
section
/-!
DEFINITION. What claims about the block are stated in: the invariant of its registers, and the registers a failed command
must leave alone.
-/

namespace Sys2Proof.Machine

/-- A RESULT value a success can leave (10_state R26, 40_datapath R120): one of the five rows, with a checksum value of
CS bits. -/
def IsResult (r : Word32) (n c : Nat) : Prop :=
  supportedWords n = true ∧ c < 2 ^ csOfWords n ∧ r = resultOf n (bytesOfWords n) (csOfWords n) c

/-- An ERRINFO value an error can leave (10_state R25, 60_exceptions R220 to R229): a code of 1 to 8 other than
WordIndexOutOfRange, with a position of 1 to 24 for UnknownWord and 0 for every other code. -/
def IsErrinfo (w : Word32) : Prop :=
  ∃ e pos, w = errinfoOf e pos ∧ e ≠ .wordIndexOutOfRange ∧
    (e = .unknownWord → 1 ≤ pos ∧ pos ≤ 24) ∧ (e ≠ .unknownWord → pos = 0)

/-- What the registers satisfy in every reachable state (10_state R24 to R29, R35). -/
structure Inv (s : State) : Prop where
  /-- STATUS holds one of its four legal values (R24). -/
  status_legal : s.status = 0 ∨ s.status = statusBusy ∨ s.status = statusSuccess ∨ s.status = statusError
  /-- ERRINFO is an error's after an error, and 0 otherwise (R25). -/
  errinfo_error : s.status = statusError → IsErrinfo s.errinfo
  errinfo_zero : s.status ≠ statusError → s.errinfo = 0
  /-- Every IDX register holds an 11-bit index (R29). -/
  idx_small : ∀ (i : Nat) (h : i < 24), s.idx[i].toNat < 2048
  /-- RESULT is that of a success, or 0 before the first one (R26). -/
  result_legal : s.result = 0 ∨ ∃ n c, IsResult s.result n c
  /-- While VALID = 1, the result is that of a legal command under a valid wordlist: LANG is its language, the indices
  beyond the count are 0, and CSVAL is the low CS bits of the last index (R24, R26, R27, R35, 40_datapath R127, R129). -/
  valid_result : s.status = statusSuccess →
    (∃ i, decode s.cmd = .command i) ∧ wlValid s.wl = true ∧ s.lang = Config.langCode s.wl.tag ∧
      ∃ n c, IsResult s.result n c ∧ (∀ (i : Nat) (h : i < 24), n ≤ i → s.idx[i] = 0) ∧ s.index (n - 1) % 2 ^ csOfWords n = c

/-- The data and result registers of two states agree: all but CMD, STATUS and ERRINFO (60_exceptions R231). -/
def SameData (s t : State) : Prop :=
  t.result = s.result ∧ t.lang = s.lang ∧ t.entW = s.entW ∧ t.idx = s.idx ∧ t.wordW = s.wordW

/-- Every register of 10_state R20 is 0x00000000. -/
def RegistersZero (t : State) : Prop :=
  t.cmd = 0 ∧ t.status = 0 ∧ t.errinfo = 0 ∧ t.result = 0 ∧ t.lang = 0 ∧ (∀ (j : Nat) (h : j < 8), t.entW[j] = 0) ∧
    (∀ (i : Nat) (h : i < 24), t.idx[i] = 0) ∧ ∀ (i : Nat) (h : i < 24) (j : Nat) (h' : j < 8), t.wordW[i][j] = 0

/-- The fields that are no registers of the block, the random source's aside: the attached wordlist and the
environment's events and answers. -/
def SameEnvironment (s t : State) : Prop := t.wl = s.wl ∧ t.inputs = s.inputs ∧ t.responses = s.responses

/-- The random source's view is untouched: nothing was drawn. -/
def NothingDrawn (s t : State) : Prop := t.rngScript = s.rngScript ∧ t.draws = s.draws

/-- Eight registers hold the bytes `b`, then zero bytes: byte k is bits [31 - 8(k mod 4) : 24 - 8(k mod 4)] of register
k div 4 (10_state R28, R30, R31, 20_memory R66). -/
def HoldsBytes (blk : Block) (b : Bytes) : Prop :=
  ∀ (k : Nat) (h : k < 32), ∀ j < 8, blk[k / 4].getLsbD (24 - 8 * (k % 4) + j) = (b.getD k 0).getLsbD j

/-- `t` holds the result of a success (41_encode R162, 42_decode R191, 60_exceptions R232): the n indices `ix` and their
words of `wl` in slots 0..n-1, 0 and empty beyond; the entropy `ent`, then zero bytes; RESULT = n | (L << 8) | (CS << 16) |
(c << 24); LANG; DONE and VALID; no error. The bytes are given in the registers' own bits, a slot's bytes after its word
being 0x00. -/
def HoldsResult (t : State) (wl : Wordlist) (ent : Bytes) (n cs c : Nat) (ix : List Nat) : Prop :=
  t.status = 0b1010 ∧ t.errinfo = 0 ∧
    (∀ (i : Nat) (h : i < 24), i < n → t.idx[i].toNat = ix.getD i 0 ∧ wordAtSlot t i = wordAt wl (ix.getD i 0) ∧
      HoldsBytes t.wordW[i] (wordAt wl (ix.getD i 0))) ∧
    (∀ (i : Nat) (h : i < 24), n ≤ i → t.idx[i] = 0 ∧ wordAtSlot t i = [] ∧ ∀ (j : Nat) (h' : j < 8), t.wordW[i][j] = 0) ∧
    (∀ k < 32, blockByte t.entW k = ent.getD k 0) ∧ HoldsBytes t.entW ent ∧
    t.result = BitVec.ofNat 32 (n ||| (ent.length <<< 8) ||| (cs <<< 16) ||| (c <<< 24)) ∧
    t.wcount = n ∧ t.entlen = ent.length ∧ t.cslen = cs ∧ t.csval = c ∧ t.lang = Config.langCode wl.tag

/-- A step answered: neither a fault nor a refusal. -/
def Answers (o : Host.Outcome State Fault Refusal) : Prop := ∃ t, o = .next t

end Sys2Proof.Machine
end

