-- ==== Sys2Proof/Certificates/Slice0/Obligations.lean ====
section
/-!
DEFINITION. The statements for the provers. Each docstring names the rule of the spec it formalises.
-/

open Sys2Proof Sys2Proof.Machine

/-! ### Reset -/

/-- R36: every register resets to 0; not busy, no completion, VALID = 0; 32 zero entropy bytes; every slot empty. -/
def Obligations.ResetValues : Prop :=
  RegistersZero State.reset ∧ State.reset.busy = false ∧ State.reset.done = false ∧ State.reset.err = false ∧
    State.reset.valid = false ∧ entBytes State.reset 32 = List.replicate 32 0 ∧ ∀ i < 24, wordAtSlot State.reset i = []

/-- R260, R261, R262, R264: a reset in any state, BUSY = 1 included, leaves every register 0 and the wordlist as it is.
That the environment's lists and the random source's view stay is the model's reading (log 21). -/
def Obligations.ResetEvent : Prop :=
  ∀ (s : State) (rest : List Input), s.inputs = .reset :: rest →
    ∃ t, step s = .next t ∧ RegistersZero t ∧ t.wl = s.wl ∧ t.inputs = rest ∧ t.responses = s.responses ∧ NothingDrawn s t

/-! ### Encoding -/

/-- R95, R101: decoding the word of a well-formed command gives it back, for every operand the field can hold. -/
def Obligations.DecodeEncode : Prop := ∀ i : Instr, i.WellFormed → decode (encode i) = .command i

/-- R95, R99: a word that decodes to a command is the word that command assembles to, and the command is well-formed. -/
def Obligations.EncodeDecode : Prop := ∀ (w : Word32) (i : Instr), decode w = .command i → i.WellFormed ∧ encode i = w

/-- R99: a word selects a row when `(w & mask) = match`, with LEN and VERIFY as its fields; a word that selects no row is
Illegal, and the rows do not overlap. -/
def Obligations.OpcodeMap : Prop :=
  ∀ w : Word32,
    (∀ l, decode w = .command (.encode l) ↔ w &&& 0xFFFF00FF = 0x00000001 ∧ l = (w.extractLsb' 8 8).toNat) ∧
    (∀ l, decode w = .command (.encodeRandom l) ↔ w &&& 0xFFFF00FF = 0x00000002 ∧ l = (w.extractLsb' 8 8).toNat) ∧
    (∀ l v, decode w = .command (.decode l v) ↔
      w &&& 0xFFFF00EF = 0x00000003 ∧ l = (w.extractLsb' 8 8).toNat ∧ v = w.getLsbD 4) ∧
    ((∃ r, decode w = .illegal r) ↔
      w &&& 0xFFFF00FF ≠ 0x00000001 ∧ w &&& 0xFFFF00FF ≠ 0x00000002 ∧ w &&& 0xFFFF00EF ≠ 0x00000003) ∧
    ¬(w &&& 0xFFFF00FF = 0x00000001 ∧ w &&& 0xFFFF00FF = 0x00000002) ∧
    ¬(w &&& 0xFFFF00FF = 0x00000001 ∧ w &&& 0xFFFF00EF = 0x00000003) ∧
    ¬(w &&& 0xFFFF00FF = 0x00000002 ∧ w &&& 0xFFFF00EF = 0x00000003)

/-- R100: the command words of the supported lengths. -/
def Obligations.SupportedCommandWords : Prop :=
  [0x00001001, 0x00001401, 0x00001801, 0x00001C01, 0x00002001].map decode =
      [16, 20, 24, 28, 32].map (fun l => .command (.encode l)) ∧
    [0x00000C02, 0x00000F02, 0x00001202, 0x00001502, 0x00001802].map decode =
      [12, 15, 18, 21, 24].map (fun n => .command (.encodeRandom n)) ∧
    [0x00000C13, 0x00000F13, 0x00001213, 0x00001513, 0x00001813].map decode =
      [12, 15, 18, 21, 24].map (fun n => .command (.decode n true)) ∧
    [0x00000C03, 0x00000F03, 0x00001203, 0x00001503, 0x00001803].map decode =
      [12, 15, 18, 21, 24].map (fun n => .command (.decode n false))

/-- R96: an Illegal decode completes with IllegalCommand, code 8 and position 0, and nothing else changes, whatever the
data registers, the wordlist and the random source hold; 0x00000000 is Illegal, and writing it to CMD starts a command. -/
def Obligations.IllegalCommandCompletes : Prop :=
  (∀ (s : State) (r : IllegalReason), decode s.cmd = .illegal r →
    engineStep s = .next { s with status := 0b0100, errinfo := 0x00000008 }) ∧
  (∃ r, decode 0x00000000 = .illegal r) ∧
  ∀ s : State, s.busy = false → hostWrite 0x000 .w4 0 s =
    { s with cmd := 0, status := 0b0001, errinfo := 0, responses := s.responses ++ [.writeOk] }

/-! ### Steps -/

/-- R72, R73: while BUSY = 1, at the engine's turn, a step is exec of the command that CMD decodes to: at that state
where the environment has no event left, and with the engine's turn taken off the environment's list where it stands
first there. -/
def Obligations.StepRunsCommand : Prop :=
  ∀ (s : State) (i : Instr), s.busy = true → decode s.cmd = .command i → i.WellFormed →
    (s.inputs = [] → step s = exec i s) ∧
    ∀ rest, s.inputs = .engine :: rest → step s = exec i { s with inputs := rest }

/-- R73: the engine has an enabled step exactly while BUSY = 1, and that step clears BUSY. -/
def Obligations.EngineStepClearsBusy : Prop :=
  ∀ s : State, (s.busy = true → ∃ t, engineTurn s = .next t ∧ t.busy = false) ∧
    (s.busy = false → engineTurn s = .next s)

/-- R73, R231, R232, R261, R280: after at most one step per pending event and one more BUSY is 0: the command has
completed, with DONE and VALID or with ERR, unless a reset is among the events taken, which has abandoned it and left
every register 0. The bound rests on the model's schedule (log 1): the engine has its turn when no event is left. -/
def Obligations.AcceptedCommandCompletes : Prop :=
  ∀ s : State, s.busy = true →
    ∃ k t, k ≤ s.inputs.length + 1 ∧ Host.Core.run Sys2Proof.core k s = .next t ∧ State.busy t = false ∧
      (Input.reset ∉ s.inputs.take k → State.cmd t = s.cmd ∧ (State.status t = 0b1010 ∨ State.status t = 0b0100)) ∧
      (Input.reset ∈ s.inputs.take k → RegistersZero t)

/-- R95, R230, R236: no step of the machine stops, in any state. -/
def Obligations.StepAlwaysAnswers : Prop := ∀ s : State, Answers (step s)

/-! ### The register port -/

/-- R62: the address map; every register is reached at its own offset only. -/
def Obligations.AddressMap : Prop :=
  regAt 0x000 = some .cmd ∧ regAt 0x004 = some .status ∧ regAt 0x008 = some .errinfo ∧ regAt 0x00C = some .result ∧
    regAt 0x010 = some .lang ∧ (∀ j : Fin 8, regAt (0x100 + 4 * j) = some (.ent j)) ∧
    (∀ i : Fin 24, regAt (0x200 + 4 * i) = some (.idx i)) ∧
    (∀ (i : Fin 24) (j : Fin 8), regAt (0x400 + 32 * i + 4 * j) = some (.word i j)) ∧
    ∀ (off : Nat) (r : Reg), regAt off = some r → off = r.offset

/-- R63: an access to an unmapped offset, of any width, gets a bus error, reads no data and changes no state. -/
def Obligations.UnmappedIsBusError : Prop :=
  ∀ (off : BitVec 12) (width : Width) (v : Word32) (s : State),
    (0x014 ≤ off.toNat ∧ off.toNat ≤ 0x0FF) ∨ (0x120 ≤ off.toNat ∧ off.toNat ≤ 0x1FF) ∨
      (0x260 ≤ off.toNat ∧ off.toNat ≤ 0x3FF) ∨ (0x700 ≤ off.toNat ∧ off.toNat ≤ 0xFFF) →
    hostRead off width s = { s with responses := s.responses ++ [.busError] } ∧
    hostWrite off width v s = { s with responses := s.responses ++ [.busError] }

/-- R65: an access that is not 4 bytes wide, or not at a multiple of 4, gets a bus error, reads no data and changes no
state. -/
def Obligations.WidthAndAlignment : Prop :=
  ∀ (off : BitVec 12) (width : Width) (v : Word32) (s : State), width ≠ .w4 ∨ off.toNat % 4 ≠ 0 →
    hostRead off width s = { s with responses := s.responses ++ [.busError] } ∧
    hostWrite off width v s = { s with responses := s.responses ++ [.busError] }

/-- R68: a read at a mapped offset returns the register with its reserved bits 0, or, for RESULT, LANG, ENT_W, IDX and
WORD_W while BUSY = 1, any value; no register changes. That this value is the free value `Config.busyRead` at the counter
`draws`, which the read advances, is the model's choice (log 8, log 9). -/
def Obligations.HostReadValue : Prop :=
  (∀ (off : BitVec 12) (r : Reg) (s : State), regAt off.toNat = some r →
    hostRead off .w4 s =
      if s.busy = true ∧ r ≠ .cmd ∧ r ≠ .status ∧ r ≠ .errinfo then
        { s with responses := s.responses ++ [.readOk (Config.busyRead s.draws)], draws := s.draws + 1 }
      else { s with responses := s.responses ++ [.readOk (readReg s r)] }) ∧
  ∀ s : State, readReg s .cmd = s.cmd ∧ readReg s .lang = s.lang ∧ (∀ j : Fin 8, readReg s (.ent j) = s.entW[j]) ∧
    (∀ (i : Fin 24) (j : Fin 8), readReg s (.word i j) = s.wordW[i][j]) ∧
    (∀ k < 32, (readReg s .status).getLsbD k = (decide (k ≤ 3) && s.status.getLsbD k)) ∧
    (∀ k < 32, (readReg s .errinfo).getLsbD k = (decide (k ≤ 3 ∨ (8 ≤ k ∧ k ≤ 12)) && s.errinfo.getLsbD k)) ∧
    (∀ k < 32, (readReg s .result).getLsbD k =
      (decide (k ≤ 4 ∨ (8 ≤ k ∧ k ≤ 13) ∨ (16 ≤ k ∧ k ≤ 19) ∨ 24 ≤ k) && s.result.getLsbD k)) ∧
    ∀ (i : Fin 24), ∀ k < 32, (readReg s (.idx i)).getLsbD k = (decide (k ≤ 10) && s.idx[i].getLsbD k)

/-- R69: what a host write at a mapped offset does. CMD is R72 (`CommandAcceptance`); STATUS, ERRINFO, RESULT, LANG and
IDX ignore it; ENT_W and WORD_W take the value while BUSY = 0 and drop it while BUSY = 1; never an error response. -/
def Obligations.HostWriteEffect : Prop :=
  ∀ (off : BitVec 12) (v : Word32) (s : State),
    (∀ r, regAt off.toNat = some r → r = .status ∨ r = .errinfo ∨ r = .result ∨ r = .lang ∨ (∃ i, r = .idx i) →
      hostWrite off .w4 v s = { s with responses := s.responses ++ [.writeOk] }) ∧
    (∀ j : Fin 8, regAt off.toNat = some (.ent j) →
      (s.busy = true → hostWrite off .w4 v s = { s with responses := s.responses ++ [.writeOk] }) ∧
      (s.busy = false → ∃ e : Block, hostWrite off .w4 v s = { s with entW := e, responses := s.responses ++ [.writeOk] } ∧
        e[j] = v ∧ ∀ k : Fin 8, k ≠ j → e[k] = s.entW[k])) ∧
    ∀ (i : Fin 24) (j : Fin 8), regAt off.toNat = some (.word i j) →
      (s.busy = true → hostWrite off .w4 v s = { s with responses := s.responses ++ [.writeOk] }) ∧
      (s.busy = false → ∃ w : Vector Block 24,
        hostWrite off .w4 v s = { s with wordW := w, responses := s.responses ++ [.writeOk] } ∧
        w[i][j] = v ∧ ∀ (a : Fin 24) (b : Fin 8), (a, b) ≠ (i, j) → w[a][b] = s.wordW[a][b])

/-- R72: a CMD write of any word while BUSY = 0 is accepted in one step, and the engine then has its step, which ends an
illegal word with IllegalCommand; while BUSY = 1 the write is dropped. -/
def Obligations.CommandAcceptance : Prop :=
  ∀ (v : Word32) (s : State),
    (s.busy = false →
      ∃ t, hostWrite 0x000 .w4 v s = t ∧ t = { s with
          cmd := v, status := 0b0001, errinfo := 0, responses := s.responses ++ [.writeOk] } ∧
        t.busy = true ∧ t.done = false ∧ t.err = false ∧ t.valid = false ∧ engineTurn t = engineStep t ∧
        ∀ r, decode v = .illegal r → engineTurn t = .next { t with status := 0b0100, errinfo := 0x00000008 }) ∧
    (s.busy = true → hostWrite 0x000 .w4 v s = { s with responses := s.responses ++ [.writeOk] })

/-- R69, R70, R77: the frame of a host access. It never changes RESULT, LANG, IDX, the wordlist, the events to come or the
random source's script; a read changes no register at all; a write while BUSY = 1 changes none either, so the inputs the
engine reads are those at acceptance. -/
def Obligations.HostAccessFrame : Prop :=
  ∀ (off : BitVec 12) (width : Width) (v : Word32) (s t : State), t = hostRead off width s ∨ t = hostWrite off width v s →
    t.result = s.result ∧ t.lang = s.lang ∧ t.idx = s.idx ∧ t.wl = s.wl ∧ t.inputs = s.inputs ∧
      t.rngScript = s.rngScript ∧ (∃ a, t.responses = s.responses ++ [a]) ∧
      (t = hostRead off width s ∨ s.busy = true →
        t.cmd = s.cmd ∧ t.status = s.status ∧ t.errinfo = s.errinfo ∧ t.entW = s.entW ∧ t.wordW = s.wordW)

/-- R70: a host write other than a CMD write is idempotent. -/
def Obligations.WritesAreIdempotent : Prop :=
  ∀ (r : Reg) (v : Word32) (s : State), r ≠ .cmd → writeReg r v (writeReg r v s) = writeReg r v s

/-! ### Datapath -/

/-- R130, R172: for every supported word count the entropy is a whole number of bytes, and encoding that many bytes gives
back this count and this checksum length. -/
def Obligations.LengthsAgree : Prop :=
  [12, 15, 18, 21, 24].map (fun n => 11 * n - csOfWords n) = [128, 160, 192, 224, 256] ∧
    ∀ n, supportedWords n = true → (11 * n - csOfWords n) % 8 = 0 ∧
      ∀ ent : Bytes, ent.length = (11 * n - csOfWords n) / 8 →
        (encodeCore ent).n = n ∧ (encodeCore ent).cs = csOfWords n

/-- R121: bit k of the entropy bit string is bit 7 - (k mod 8) of byte k div 8. -/
def Obligations.EntropyBitOrder : Prop :=
  ∀ ent : Bytes, (bytesToBits ent).length = 8 * ent.length ∧
    ∀ k < 8 * ent.length, (bytesToBits ent)[k]? = some ((ent.getD (k / 8) 0).getLsbD (7 - k % 8))

/-- R28, R30, R31, R66: byte k of eight registers is bits [31 - 8(k mod 4) : 24 - 8(k mod 4)] of register k div 4; these are
the bytes the engine reads as ENT and in the word slots; the word of a slot is the bytes before its first 0x00, all 32 if
there is none; writing at most 32 bytes leaves them in their places and 0x00 in every later one. -/
def Obligations.BytePacking : Prop :=
  (∀ (blk : Block) (k : Nat) (h : k < 32), ∀ j < 8,
    (blockByte blk k).getLsbD j = blk[k / 4].getLsbD (24 - 8 * (k % 4) + j)) ∧
  (∀ (s : State) (len : Nat), len ≤ 32 → entBytes s len = (List.range len).map (blockByte s.entW)) ∧
  (∀ (s : State) (i : Nat) (h : i < 24), wordAtSlot s i = slotWord s.wordW[i]) ∧
  (∀ (blk : Block) (z : Nat), z ≤ 32 → (∀ m < z, blockByte blk m ≠ 0) → (z < 32 → blockByte blk z = 0) →
    slotWord blk = (List.range z).map (blockByte blk)) ∧
  ∀ w : Bytes, w.length ≤ 32 → HoldsBytes (blockOfBytes w) w ∧ ((0x00 : Byte) ∉ w → slotWord (blockOfBytes w) = w)

/-- R122: byte k is the value of bits 8k to 8k+7, and this is the inverse of R121. -/
def Obligations.BitsToBytesInverse : Prop :=
  (∀ (e : Bits) (len : Nat), e.length = 8 * len → (bitsToBytes e).length = len ∧
    ∀ k < len, (bitsToBytes e)[k]? = some (BitVec.ofNat 8 (val ((e.drop (8 * k)).take 8)))) ∧
  ∀ b : Bytes, bitsToBytes (bytesToBits b) = b

/-- R123: the checksum is the nBits most significant bits of the first digest byte, most significant first. -/
def Obligations.ChecksumBits : Prop :=
  ∀ (b : Bytes) (nBits : Nat), 1 ≤ nBits → nBits ≤ 8 →
    (checksum b nBits).length = nBits ∧
      (∀ k < nBits, (checksum b nBits)[k]? = some ((Config.sha256 b)[0].getLsbD (7 - k))) ∧
      val (checksum b nBits) = cval b nBits ∧ cval b nBits = (Config.sha256 b)[0].toNat >>> (8 - nBits) ∧
      cval b nBits < 2 ^ nBits

/-- R126: the chunks in integer form. -/
def Obligations.SpliceIntegerForm : Prop :=
  ∀ ent : Bytes, supportedBytes ent.length = true →
    ∀ i < wordsOfBytes ent.length,
      (encodeCore ent).chunks[i]? = some
        ((((∑ k ∈ Finset.range ent.length, (ent.getD k 0).toNat * 2 ^ (8 * (ent.length - 1 - k))) *
            2 ^ csOfBytes ent.length + cval ent (csOfBytes ent.length)) >>> (11 * (wordsOfBytes ent.length - 1 - i))) &&& 0x7FF)

/-- R127: entropy bit k lands in chunk k div 11 at bit 10 - (k mod 11); the last chunk is the last 11 - CS entropy bits
followed by the checksum. -/
def Obligations.BitPlacement : Prop :=
  ∀ ent : Bytes, supportedBytes ent.length = true →
    (splice ent).length = 11 * wordsOfBytes ent.length ∧
    (∀ k < 8 * ent.length, ((encodeCore ent).chunks.getD (k / 11) 0).testBit (10 - k % 11) =
      (ent.getD (k / 8) 0).getLsbD (7 - k % 8)) ∧
    (encodeCore ent).chunks.getD (wordsOfBytes ent.length - 1) 0 =
      (val ((bytesToBits ent).drop (8 * ent.length - (11 - csOfBytes ent.length))) <<< csOfBytes ent.length) |||
        cval ent (csOfBytes ent.length)

/-- R129: the split in integer form. -/
def Obligations.SplitIntegerForm : Prop :=
  ∀ (ix : List Nat) (n cs len t : Nat), ix.length = n → supportedWords n = true → (∀ i ∈ ix, i < 2048) →
    cs = csOfWords n → len = bytesOfWords n → t = ∑ i ∈ Finset.range n, ix.getD i 0 * 2 ^ (11 * (n - 1 - i)) →
    (split ix).c = t &&& (2 ^ cs - 1) ∧ (split ix).c = ix.getD (n - 1) 0 &&& (2 ^ cs - 1) ∧
      (split ix).ent.length = len ∧
      ∀ k < len, ((split ix).ent.getD k 0).toNat = ((t >>> cs) >>> (8 * (len - 1 - k))) &&& 0xFF

/-- R133: splitting the chunks of an encoding gives back the entropy and its checksum, so the check passes. -/
def Obligations.SplitOfSplice : Prop :=
  ∀ ent : Bytes, supportedBytes ent.length = true →
    (split (encodeCore ent).chunks).ent = ent ∧
    (split (encodeCore ent).chunks).c = cval ent (csOfBytes ent.length) ∧
    (split (encodeCore ent).chunks).c =
      cval (split (encodeCore ent).chunks).ent (csOfWords (wordsOfBytes ent.length))

/-- R134: in the indices of a valid encoding, changing one of the low CS bits of the last index changes the received
checksum and not the entropy, so verification fails; changing any other bit changes the entropy. -/
def Obligations.ChecksumSensitivity : Prop :=
  ∀ (ent : Bytes) (n cs : Nat), supportedBytes ent.length = true → n = wordsOfBytes ent.length →
    cs = csOfBytes ent.length → ∀ i < n, ∀ b < 11, ∀ ix : List Nat,
      ix = (encodeCore ent).chunks.set i ((encodeCore ent).chunks.getD i 0 ^^^ 2 ^ b) →
      (i = n - 1 ∧ b < cs → (split ix).ent = ent ∧ (split ix).c ≠ cval ent cs ∧
        ∀ s : State, decodeIndices n true ix s = raiseErr .checksumMismatch 0 s) ∧
      (¬(i = n - 1 ∧ b < cs) → (split ix).ent ≠ ent)

/-! ### The wordlist -/

/-- R136: the index of a word is the smallest one below 2048 whose word is the folded word, none if there is none; under
a valid wordlist it is the only one. -/
def Obligations.IndexLookup : Prop :=
  ∀ (wl : Wordlist) (w : Bytes),
    (∀ i, indexOf wl w = some i ↔
      i < 2048 ∧ wl.words[i]? = some (fold wl.tag w) ∧ ∀ j < i, wl.words[j]? ≠ some (fold wl.tag w)) ∧
    (indexOf wl w = none ↔ ∀ i < 2048, wl.words[i]? ≠ some (fold wl.tag w)) ∧
    (wlValid wl = true → ∀ i j : Nat, wl.words[i]? = some (fold wl.tag w) → wl.words[j]? = some (fold wl.tag w) → i = j)

/-- R137: folding sends ASCII capitals to small letters and leaves every other ASCII byte, in a mixed word too, where each
stretch of non-ASCII bytes between them becomes some byte string (OPEN); it is idempotent; it is blind to ASCII case; it
fixes every word of a valid wordlist, so such a word has its index however its ASCII letters are written. Idempotency is
what the rule assumes and the model has it by construction; that the case of ASCII letters is not seen by the folding of
a mixed word's non-ASCII stretches is the model's reading (both log 5). -/
def Obligations.CaseFolding : Prop :=
  (∀ b : Byte, asciiLower b = if 0x41 ≤ b.toNat ∧ b.toNat ≤ 0x5A then b + 0x20 else b) ∧
    (∀ (tag : LangTag) (w : Bytes), (∀ b ∈ w, b.toNat < 0x80) → fold tag w = w.map asciiLower) ∧
    (∀ (tag : LangTag) (ps : List (Bytes × Bytes)) (tail : Bytes),
      (∀ p ∈ ps, (∀ b ∈ p.1, b.toNat < 0x80) ∧ ∀ b ∈ p.2, 0x80 ≤ b.toNat) → (∀ b ∈ tail, b.toNat < 0x80) →
      ∃ imgs : List Bytes, imgs.length = ps.length ∧ fold tag (ps.flatMap (fun p => p.1 ++ p.2) ++ tail) =
        (List.zipWith (fun p img => p.1.map asciiLower ++ img) ps imgs).flatten ++ tail.map asciiLower) ∧
    (∀ (tag : LangTag) (w : Bytes), fold tag (fold tag w) = fold tag w) ∧
    (∀ (tag : LangTag) (w : Bytes), fold tag (w.map asciiLower) = fold tag w) ∧
    ∀ wl : Wordlist, wlValid wl = true → (∀ w ∈ wl.words, fold wl.tag w = w) ∧
      ∀ i < 2048, ∀ w : Bytes, w.map asciiLower = (wordAt wl i).map asciiLower → indexOf wl w = some i

/-- R139: all the indices in order, or the first word without one, counted from 1. -/
def Obligations.LookupAll : Prop :=
  ∀ (wl : Wordlist) (ws : List Bytes),
    (∀ ix, lookupAll wl ws = .ok ix ↔ ws.map (indexOf wl) = ix.map some) ∧
    ∀ p, lookupAll wl ws = .unknownWord p ↔
      1 ≤ p ∧ p ≤ ws.length ∧ indexOf wl (ws.getD (p - 1) []) = none ∧
        ∀ q, q + 1 < p → indexOf wl (ws.getD q []) ≠ none

/-- R141, R194: the empty word, an all-zero slot, has no index under a valid wordlist. -/
def Obligations.EmptyWordUnknown : Prop :=
  ∀ wl : Wordlist, wlValid wl = true → indexOf wl (slotWord (.replicate 8 0)) = none

/-- R22, R264: no step changes the attached wordlist. -/
def Obligations.WordlistConstant : Prop := ∀ s t : State, step s = .next t → t.wl = s.wl

/-! ### Errors of the commands -/

/-- R163: an unsupported entropy length gives InvalidEntropyLength, and nothing but STATUS and ERRINFO changes. -/
def Obligations.UnsupportedEntropyLength : Prop :=
  ∀ (len : Nat) (s : State), len < 16 ∨ len % 4 ≠ 0 ∨ 33 ≤ len →
    exec (.encode len) s = .next { s with status := 0b0100, errinfo := 0x00000001 }

/-- R174, R198: an unsupported word count gives InvalidWordCount, with no draw and no lookup. -/
def Obligations.UnsupportedWordCount : Prop :=
  ∀ (n : Nat) (verify : Bool) (s : State), n < 12 ∨ n % 3 ≠ 0 ∨ 25 ≤ n →
    exec (.encodeRandom n) s = .next { s with status := 0b0100, errinfo := 0x00000002 } ∧
    exec (.decode n verify) s = .next { s with status := 0b0100, errinfo := 0x00000002 }

/-- R141, R227: a wordlist is valid iff it is available, has 2048 pairwise distinct words, each of them non-empty, without a
byte 0x00, of at most 32 bytes and its own folding; under an invalid wordlist every command of a supported length gives WordlistUnavailable, whatever the other
registers hold; the length is checked first. -/
def Obligations.WordlistUnavailable : Prop :=
  (∀ wl : Wordlist, wlValid wl = true ↔
    wl.available = true ∧ wl.words.length = 2048 ∧
      (∀ (i j : Nat) (hi : i < wl.words.length) (hj : j < wl.words.length), wl.words[i] = wl.words[j] → i = j) ∧
      (∀ w ∈ wl.words, w ≠ [] ∧ (0x00 : Byte) ∉ w ∧ w.length ≤ 32) ∧ ∀ w ∈ wl.words, fold wl.tag w = w) ∧
  ∀ (s : State), wlValid s.wl = false →
    (∀ len, supportedBytes len = true → exec (.encode len) s = .next { s with status := 0b0100, errinfo := 0x00000007 }) ∧
    (∀ n, supportedWords n = true →
      exec (.encodeRandom n) s = .next { s with status := 0b0100, errinfo := 0x00000007 } ∧
      ∀ verify, exec (.decode n verify) s = .next { s with status := 0b0100, errinfo := 0x00000007 }) ∧
    (∀ len, supportedBytes len = false → exec (.encode len) s = .next { s with status := 0b0100, errinfo := 0x00000001 }) ∧
    ∀ n, supportedWords n = false →
      exec (.encodeRandom n) s = .next { s with status := 0b0100, errinfo := 0x00000002 } ∧
      ∀ verify, exec (.decode n verify) s = .next { s with status := 0b0100, errinfo := 0x00000002 }

/-- R173: when the random source fails, the command completes with RandomSourceFailure; no register but STATUS and
ERRINFO changes, and one answer of the source is used. -/
def Obligations.RandomSourceFailure : Prop :=
  ∀ (n : Nat) (s s' : State), supportedWords n = true → wlValid s.wl = true →
    drawRandom (bytesOfWords n) s = (none, s') →
    ∃ t, exec (.encodeRandom n) s = .next t ∧ t.status = 0b0100 ∧ t.errinfo = 0x00000006 ∧ t.cmd = s.cmd ∧
      SameData s t ∧ SameEnvironment s t ∧ t.rngScript = s'.rngScript ∧ t.draws = s'.draws

/-- R223: the first word without an index gives UnknownWord with its 1-based position, 1..24, whatever the later words and
the checksum are. -/
def Obligations.UnknownWordPosition : Prop :=
  ∀ (n : Nat) (verify : Bool) (s : State) (p : Nat), supportedWords n = true → wlValid s.wl = true → p < n →
    indexOf s.wl (wordAtSlot s p) = none → (∀ q < p, indexOf s.wl (wordAtSlot s q) ≠ none) →
    ∃ t, exec (.decode n verify) s = .next t ∧
      t = { s with status := 0b0100, errinfo := BitVec.ofNat 32 (3 ||| ((p + 1) <<< 8)) } ∧
      t.errcode = 3 ∧ t.errpos = p + 1 ∧ t.errpos ≤ 24

/-- R224: with VERIFY = 1, a last index whose low CS bits differ from the checksum of the reconstructed entropy gives
ChecksumMismatch; with VERIFY = 0 no command does. -/
def Obligations.ChecksumMismatch : Prop :=
  (∀ (n : Nat) (s : State) (ix : List Nat), supportedWords n = true → wlValid s.wl = true → ix.length = n →
    (∀ i < n, indexOf s.wl (wordAtSlot s i) = some (ix.getD i 0)) →
    ix.getD (n - 1) 0 % 2 ^ csOfWords n ≠ (Config.sha256 (split ix).ent)[0].toNat >>> (8 - csOfWords n) →
    exec (.decode n true) s = .next { s with status := 0b0100, errinfo := 0x00000004 }) ∧
  ∀ (i : Instr) (s t : State), exec i s = .next t → t.errcode = 4 → ∃ n, i = .decode n true

/-- R225: no command raises WordIndexOutOfRange, and code 5 means nothing else. -/
def Obligations.IndexNeverOutOfRange : Prop :=
  (∀ (i : Instr) (s t : State), exec i s = .next t → t.errcode ≠ 5) ∧
  ∀ e : ErrCode, e.code = 5 ↔ e = .wordIndexOutOfRange

/-- R231, R232: an engine step ends in exactly one completion. Either it is a success, or it is an error with one
code and no register but STATUS and ERRINFO changes. In both, CMD, the wordlist and the environment stay. -/
def Obligations.AllOrNothing : Prop :=
  ∀ s t : State, engineStep s = .next t → t.cmd = s.cmd ∧ SameEnvironment s t ∧
    ((t.status = 0b1010 ∧ t.errinfo = 0) ∨
      (t.status = 0b0100 ∧ 1 ≤ t.errcode ∧ t.errcode ≤ 8 ∧ SameData s t ∧
        ∃ (e : ErrCode) (pos : Nat), t.errinfo = BitVec.ofNat 32 (e.code ||| (pos <<< 8)) ∧ (e ≠ .unknownWord → pos = 0)))

/-- R174, R240: only an ENCODE_RANDOM that passes its checks draws; every other command leaves the random source alone. -/
def Obligations.OnlyRandomDraws : Prop :=
  ∀ (i : Instr) (s t : State), exec i s = .next t →
    (∀ n, i = .encodeRandom n → supportedWords n = false ∨ wlValid s.wl = false) → NothingDrawn s t

/-! ### Encode family -/

/-- R161, R162, R232: with a supported length and a valid wordlist ENCODE succeeds: the result registers hold the encoding
of `ENT[0..L-1]`, and nothing else of the state changes. -/
def Obligations.EncodeResult : Prop :=
  ∀ (len : Nat) (s : State), supportedBytes len = true → wlValid s.wl = true →
    ∃ t, exec (.encode len) s = .next t ∧
      HoldsResult t s.wl (entBytes s len) (wordsOfBytes len) (csOfBytes len)
        ((Config.sha256 (entBytes s len))[0].toNat >>> (8 - csOfBytes len)) (encodeCore (entBytes s len)).chunks ∧
      (entBytes s len).length = len ∧ t.cmd = s.cmd ∧ SameEnvironment s t ∧ NothingDrawn s t

/-- R167: ENCODE leaves `ENT[0..L-1]` as it found them, and after success every later byte is 0. -/
def Obligations.EncodeKeepsEntropy : Prop :=
  ∀ (len : Nat) (s t : State), exec (.encode len) s = .next t →
    entBytes t len = entBytes s len ∧
    (t.status = 0b1010 → ∀ k, len ≤ k → k < 32 → blockByte t.entW k = 0)

/-- R164: the bytes beyond L affect no output: on success the same state results whatever they are; on error they keep
their values. -/
def Obligations.EncodeIgnoresTail : Prop :=
  ∀ (len : Nat) (s : State) (e : Block), (blockBytes e).take len = (blockBytes s.entW).take len →
    ∃ t t', exec (.encode len) s = .next t ∧ exec (.encode len) { s with entW := e } = .next t' ∧
      t'.status = t.status ∧ t'.errinfo = t.errinfo ∧ (t.status = 0b1010 → t' = t) ∧ (t.status = 0b0100 → t'.entW = e)

/-- R165: ENCODE writes the same registers whenever `ENT[0..L-1]`, L and the wordlist are the same, and a second ENCODE
rewrites the same values. -/
def Obligations.EncodeDeterministic : Prop :=
  ∀ (len : Nat) (s s' : State), supportedBytes len = true → wlValid s.wl = true → s'.wl = s.wl →
    entBytes s' len = entBytes s len →
    ∃ t t', exec (.encode len) s = .next t ∧ exec (.encode len) s' = .next t' ∧ SameData t t' ∧ t'.status = t.status ∧
      t'.errinfo = t.errinfo ∧ exec (.encode len) t = .next t

/-- R170: when the random source answers with `r`, ENCODE_RANDOM succeeds with the encoding of `r`, which it leaves in ENT,
and changes nothing else but the random source's view. -/
def Obligations.EncodeRandomResult : Prop :=
  ∀ (n : Nat) (s s' : State) (r : Bytes), supportedWords n = true → wlValid s.wl = true →
    drawRandom (bytesOfWords n) s = (some r, s') →
    ∃ t, exec (.encodeRandom n) s = .next t ∧
      HoldsResult t s.wl r n (csOfWords n) ((Config.sha256 r)[0].toNat >>> (8 - csOfWords n)) (encodeCore r).chunks ∧
      r.length = (11 * n - csOfWords n) / 8 ∧ t.cmd = s.cmd ∧ SameEnvironment s t ∧
      t.rngScript = s'.rngScript ∧ t.draws = s'.draws

/-- R171: the random source may answer with any string of L bytes, or fail, and it never gives another length. -/
def Obligations.DrawIsFree : Prop :=
  (∀ (len : Nat) (r : Bytes), len ≤ 32 → r.length = len → ∃ a, ∀ s : State,
    drawRandom len { s with rngScript := [a] } = (some r, { s with rngScript := [] })) ∧
  (∀ (len : Nat) (s : State), drawRandom len { s with rngScript := [none] } = (none, { s with rngScript := [] })) ∧
  ∀ (len : Nat) (s s' : State) (r : Bytes), len ≤ 32 → drawRandom len s = (some r, s') → r.length = len

/-- R175: ENCODE_RANDOM does not read ENT: whatever it held, on success the state is the same and ENT holds the drawn
bytes; on any error ENT is unchanged. -/
def Obligations.RandomIgnoresEntropy : Prop :=
  ∀ (n : Nat) (s : State) (e : Block),
    ∃ t t', exec (.encodeRandom n) s = .next t ∧ exec (.encodeRandom n) { s with entW := e } = .next t' ∧
      t'.status = t.status ∧ t'.errinfo = t.errinfo ∧
      (t.status = 0b1010 → t' = t ∧ (drawRandom (bytesOfWords n) s).1 = some (entBytes t (bytesOfWords n))) ∧
      (t.status = 0b0100 → t.entW = s.entW ∧ t'.entW = e)

/-- R142: two valid wordlists give the same indices, checksum and entropy for the same entropy; only the words and LANG
differ. -/
def Obligations.LanguageIndependence : Prop :=
  ∀ (len : Nat) (s : State) (wl : Wordlist), supportedBytes len = true → wlValid s.wl = true → wlValid wl = true →
    ∃ t t', exec (.encode len) s = .next t ∧ exec (.encode len) { s with wl := wl } = .next t' ∧
      t'.idx = t.idx ∧ t'.result = t.result ∧ t'.entW = t.entW ∧ t'.status = t.status ∧ t'.errinfo = t.errinfo ∧
      t.lang = Config.langCode s.wl.tag ∧ t'.lang = Config.langCode wl.tag ∧
      ∀ i < wordsOfBytes len, wordAtSlot t i = wordAt s.wl (t.index i) ∧ wordAtSlot t' i = wordAt wl (t.index i)

/-! ### Decode family -/

/-- R191, R192: with a supported count, a valid wordlist, every word known and, if VERIFY = 1, the right checksum, DECODE
succeeds: the result registers hold the indices, the wordlist's own form of the words and the split, and nothing else of
the state changes. -/
def Obligations.DecodeResult : Prop :=
  ∀ (n : Nat) (verify : Bool) (s : State) (ix : List Nat), supportedWords n = true → wlValid s.wl = true →
    ix.length = n → (∀ i < n, indexOf s.wl (wordAtSlot s i) = some (ix.getD i 0)) →
    (verify = true → (split ix).c = (Config.sha256 (split ix).ent)[0].toNat >>> (8 - csOfWords n)) →
    ∃ t, exec (.decode n verify) s = .next t ∧
      HoldsResult t s.wl (split ix).ent n (csOfWords n) (split ix).c ix ∧ (split ix).ent.length = bytesOfWords n ∧
      t.cmd = s.cmd ∧ SameEnvironment s t ∧ NothingDrawn s t

/-- R196: with VERIFY = 0 DECODE succeeds whenever the count is supported, the wordlist valid and every word known; the
last index and CSVAL are the received ones, and only these two, and with the last index its word, can differ from what
ENCODE of the entropy gives. -/
def Obligations.DecodeUnverified : Prop :=
  ∀ (n : Nat) (s : State) (ix : List Nat), supportedWords n = true → wlValid s.wl = true → ix.length = n →
    (∀ i < n, indexOf s.wl (wordAtSlot s i) = some (ix.getD i 0)) →
    ∃ t, exec (.decode n false) s = .next t ∧ t.status = 0b1010 ∧ t.errinfo = 0 ∧
      t.index (n - 1) = ix.getD (n - 1) 0 ∧ t.csval = ix.getD (n - 1) 0 % 2 ^ csOfWords n ∧
      ∃ u, exec (.encode (bytesOfWords n)) t = .next u ∧ u.entW = t.entW ∧ u.lang = t.lang ∧ u.wcount = t.wcount ∧
        u.entlen = t.entlen ∧ u.cslen = t.cslen ∧ u.cmd = t.cmd ∧ u.status = t.status ∧ u.errinfo = t.errinfo ∧
        ∀ (i : Nat) (h : i < 24), i ≠ n - 1 → u.idx[i] = t.idx[i] ∧ u.index i = t.index i ∧ u.wordW[i] = t.wordW[i]

/-- R197: the slots beyond the count do not affect the outcome; on success they are emptied, on error unchanged. -/
def Obligations.DecodeIgnoresUnusedSlots : Prop :=
  ∀ (n : Nat) (verify : Bool) (s : State) (w : Vector Block 24),
    (∀ (i : Nat) (h : i < 24), i < n → w[i] = s.wordW[i]) →
    ∃ t t', exec (.decode n verify) s = .next t ∧ exec (.decode n verify) { s with wordW := w } = .next t' ∧
      t'.status = t.status ∧ t'.errinfo = t.errinfo ∧
      (t.status = 0b1010 → t' = t ∧ ∀ i, n ≤ i → i < 24 → wordAtSlot t i = []) ∧ (t.status = 0b0100 → t'.wordW = w)

/-- R193: after a success of DECODE with VERIFY = 1, ENCODE of the entropy it left writes exactly the same registers; and
DECODE.V directly after a successful ENCODE leaves every data register, RESULT and LANG unchanged. -/
def Obligations.DecodeAgreesWithEncode : Prop :=
  (∀ (n : Nat) (s t : State), exec (.decode n true) s = .next t → t.status = 0b1010 →
    exec (.encode (bytesOfWords n)) t = .next t) ∧
  ∀ (len : Nat) (s t : State) (v : Word32), exec (.encode len) s = .next t → t.status = 0b1010 →
    exec (.decode (wordsOfBytes len) true) (acceptCommand v t) = .next { t with cmd := v }

/-! ### Rules of the whole machine -/

/-- R23: CMD changes only by a reset or by an accepted write of the new word. -/
def Obligations.CommandRegisterRule : Prop :=
  ∀ s t : State, step s = .next t → t.cmd = s.cmd ∨ (∃ rest, s.inputs = .reset :: rest ∧ t.cmd = 0) ∨
    ∃ v rest, s.inputs = .write 0x000 .w4 v :: rest ∧ s.busy = false ∧ t.cmd = v

/-- R26, R27, R29: only a successful completion (or reset) writes RESULT, LANG and IDX. -/
def Obligations.ResultWrittenOnSuccessOnly : Prop :=
  ∀ s t : State, step s = .next t →
    (t.result = s.result ∧ t.lang = s.lang ∧ t.idx = s.idx) ∨ (∃ rest, s.inputs = .reset :: rest) ∨
      (s.busy = true ∧ t.status = 0b1010)

/-- R24: VALID stays 1 from a successful completion until the next acceptance or reset; host writes to ENT_W and WORD_W
do not clear it. -/
def Obligations.ValidStays : Prop :=
  ∀ s t : State, step s = .next t → s.status = 0b1010 →
    t.status = 0b1010 ∨ (∃ rest, s.inputs = .reset :: rest) ∨
      ∃ v rest, s.inputs = .write 0x000 .w4 v :: rest ∧ t.cmd = v ∧ t.status = 0b0001

/-- The invariant holds right after reset (R24, R25, R26, R29, R36). -/
def Obligations.ResetMeetsInvariant : Prop := Inv State.reset

/-- Every step keeps the invariant (R24 to R29, R35): STATUS is legal, ERRINFO is a legal error's exactly after an error,
the indices are 11-bit, RESULT is one of the five rows, and while VALID = 1 it describes the result the registers hold. -/
def Obligations.StepKeepsInvariant : Prop := ∀ s t : State, Inv s → step s = .next t → Inv t
end

