-- ==== Sys2Proof/Laws/Bits.lean ====
section
/-!
SUPPORT. The laws of bit strings: value of a concatenation, of `bits_N`, and the lengths (00_scope R13, R14).
-/

namespace Sys2Proof.Machine

theorem foldl_val (s : Bits) (a : Nat) :
    s.foldl (fun acc b => 2 * acc + b.toNat) a = a * 2 ^ s.length + val s := by
  induction s generalizing a with
  | nil => simp [val]
  | cons b s ih =>
    have h0 : val (b :: s) = b.toNat * 2 ^ s.length + val s := by
      rw [val, List.foldl_cons, ih]; simp
    rw [List.foldl_cons, ih, h0, List.length_cons, pow_succ]
    ring

@[simp] theorem val_nil : val [] = 0 := rfl

@[simp] theorem val_cons (b : Bool) (s : Bits) : val (b :: s) = b.toNat * 2 ^ s.length + val s := by
  rw [val, List.foldl_cons, foldl_val]; simp

theorem val_append (s t : Bits) : val (s ++ t) = val s * 2 ^ t.length + val t := by
  rw [val, List.foldl_append, foldl_val]; rfl

theorem val_lt (s : Bits) : val s < 2 ^ s.length := by
  induction s with
  | nil => simp
  | cons b s ih => cases b <;> simp [pow_succ] <;> omega

@[simp] theorem bitsN_length (n v : Nat) : (bitsN n v).length = n := by
  induction n with
  | zero => rfl
  | succ n ih => simp [bitsN, ih]

theorem val_bitsN (n v : Nat) : val (bitsN n v) = v % 2 ^ n := by
  induction n with
  | zero => simp [bitsN, Nat.mod_one]
  | succ n ih =>
    rw [bitsN, val_cons, ih, bitsN_length, Nat.mod_pow_succ, Nat.testBit_eq_decide_div_mod_eq]
    have : v / 2 ^ n % 2 = 0 ∨ v / 2 ^ n % 2 = 1 := by omega
    rcases this with h | h
    · simp [h]
    · simp [h]; ring

/-- A bit string is determined by its length and its value. -/
theorem eq_of_val {s t : Bits} (hl : s.length = t.length) (hv : val s = val t) : s = t := by
  induction s generalizing t with
  | nil => cases t <;> simp_all
  | cons b s ih =>
    cases t with
    | nil => simp at hl
    | cons c t =>
      simp only [List.length_cons, Nat.add_right_cancel_iff] at hl
      simp only [val_cons, hl] at hv
      have h1 := val_lt s
      have h2 := val_lt t
      rw [hl] at h1
      cases b <;> cases c <;> simp only [Bool.toNat_false, Bool.toNat_true, zero_mul, one_mul, zero_add] at hv
      · rw [ih hl hv]
      · omega
      · omega
      · rw [ih hl (by omega)]

theorem bitsN_val (s : Bits) : bitsN s.length (val s) = s :=
  eq_of_val (by simp) (by rw [val_bitsN, Nat.mod_eq_of_lt (val_lt s)])

@[simp] theorem bytesToBits_nil : bytesToBits [] = [] := rfl

@[simp] theorem bytesToBits_cons (x : Byte) (b : Bytes) : bytesToBits (x :: b) = bitsN 8 x.toNat ++ bytesToBits b := rfl

@[simp] theorem bytesToBits_length (b : Bytes) : (bytesToBits b).length = 8 * b.length := by
  induction b with
  | nil => rfl
  | cons x b ih => simp [ih]; ring

/-- The big-endian number of a byte string, `Eint` (40_datapath R126). -/
def bigEndian (b : Bytes) : Nat := b.foldl (fun acc x => 256 * acc + x.toNat) 0

theorem foldl_bigEndian (b : Bytes) (a : Nat) :
    b.foldl (fun acc x => 256 * acc + x.toNat) a = a * 256 ^ b.length + bigEndian b := by
  induction b generalizing a with
  | nil => simp [bigEndian]
  | cons x b ih =>
    have h0 : bigEndian (x :: b) = x.toNat * 256 ^ b.length + bigEndian b := by
      rw [bigEndian, List.foldl_cons, ih]; simp
    rw [List.foldl_cons, ih, h0, List.length_cons, pow_succ]
    ring

@[simp] theorem bigEndian_nil : bigEndian [] = 0 := rfl

@[simp] theorem bigEndian_cons (x : Byte) (b : Bytes) :
    bigEndian (x :: b) = x.toNat * 256 ^ b.length + bigEndian b := by
  rw [bigEndian, List.foldl_cons, foldl_bigEndian]; simp

/-- The entropy bit string read as a number is the big-endian number of the bytes. -/
theorem val_bytesToBits (b : Bytes) : val (bytesToBits b) = bigEndian b := by
  induction b with
  | nil => rfl
  | cons x b ih =>
    have hx := x.isLt
    rw [bytesToBits_cons, val_append, ih, bigEndian_cons, val_bitsN, bytesToBits_length, Nat.mod_eq_of_lt (by omega),
      show (256 : Nat) = 2 ^ 8 from rfl, ← pow_mul]

@[simp] theorem groups_length (k n : Nat) (s : Bits) : (groups k n s).length = n := by
  induction n generalizing s with
  | zero => rfl
  | succ n ih => simp [groups, ih]

/-- Group i of a bit string starts at bit k*i. -/
theorem groups_getElem (k n : Nat) (s : Bits) (i : Nat) (h : i < (groups k n s).length) :
    (groups k n s)[i] = (s.drop (k * i)).take k := by
  induction n generalizing s i with
  | zero => simp [groups] at h
  | succ n ih =>
    cases i with
    | zero => simp [groups]
    | succ i =>
      simp only [groups, List.getElem_cons_succ]
      rw [ih, List.drop_drop]
      congr 2
      ring

/-- A group's value is below 2^k. -/
theorem val_group_lt (k n : Nat) (s : Bits) : ∀ g ∈ groups k n s, val g < 2 ^ k := by
  intro g hg
  obtain ⟨i, hi, rfl⟩ := List.getElem_of_mem hg
  rw [groups_getElem]
  exact lt_of_lt_of_le (val_lt _) (Nat.pow_le_pow_right (by omega) (by simp))

@[simp] theorem indexBits_length (idx : List Nat) : (indexBits idx).length = 11 * idx.length := by
  induction idx with
  | nil => rfl
  | cons i idx ih =>
    have : indexBits (i :: idx) = bitsN 11 i ++ indexBits idx := rfl
    rw [this]; simp [ih]; ring

@[simp] theorem encodeCore_chunks_length (ent : Bytes) :
    (encodeCore ent).chunks.length = wordsOfBytes ent.length := by simp [encodeCore]

/-- Every chunk is an 11-bit value (40_datapath R131). -/
theorem encodeCore_chunk_lt (ent : Bytes) : ∀ c ∈ (encodeCore ent).chunks, c < 2048 := by
  intro c hc
  obtain ⟨g, hg, rfl⟩ := List.mem_map.1 hc
  exact val_group_lt 11 _ _ g hg

end Sys2Proof.Machine
end

