-- ==== Sys2Proof/Laws/Datapath.lean ====
section
/-!
SUPPORT. The laws of splice and split that the datapath's claims rest on (40_datapath R120 to R131).
-/

namespace Sys2Proof.Machine

/-- The five supported rows, from the entropy length (R120). -/
theorem supportedBytes_cases {len : Nat} (h : supportedBytes len = true) :
    (len = 16 ∧ csOfBytes len = 4 ∧ wordsOfBytes len = 12) ∨ (len = 20 ∧ csOfBytes len = 5 ∧ wordsOfBytes len = 15) ∨
    (len = 24 ∧ csOfBytes len = 6 ∧ wordsOfBytes len = 18) ∨ (len = 28 ∧ csOfBytes len = 7 ∧ wordsOfBytes len = 21) ∨
    (len = 32 ∧ csOfBytes len = 8 ∧ wordsOfBytes len = 24) := by
  simp only [supportedBytes, List.contains_eq_mem, List.mem_cons, List.not_mem_nil, or_false, decide_eq_true_eq] at h
  rcases h with rfl | rfl | rfl | rfl | rfl <;> decide

/-- The five supported rows, from the word count (R120). -/
theorem supportedWords_cases {n : Nat} (h : supportedWords n = true) :
    (n = 12 ∧ csOfWords n = 4 ∧ bytesOfWords n = 16) ∨ (n = 15 ∧ csOfWords n = 5 ∧ bytesOfWords n = 20) ∨
    (n = 18 ∧ csOfWords n = 6 ∧ bytesOfWords n = 24) ∨ (n = 21 ∧ csOfWords n = 7 ∧ bytesOfWords n = 28) ∨
    (n = 24 ∧ csOfWords n = 8 ∧ bytesOfWords n = 32) := by
  simp only [supportedWords, List.contains_eq_mem, List.mem_cons, List.not_mem_nil, or_false, decide_eq_true_eq] at h
  rcases h with rfl | rfl | rfl | rfl | rfl <;> decide

/-- What a supported entropy length says of its row (R120, R131). -/
theorem supportedBytes_row {len : Nat} (h : supportedBytes len = true) :
    supportedWords (wordsOfBytes len) = true ∧ csOfBytes len = csOfWords (wordsOfBytes len) ∧
      bytesOfWords (wordsOfBytes len) = len ∧ len ≤ 32 ∧ csOfBytes len ≤ 8 := by
  rcases supportedBytes_cases h with ⟨rfl, -, -⟩ | ⟨rfl, -, -⟩ | ⟨rfl, -, -⟩ | ⟨rfl, -, -⟩ | ⟨rfl, -, -⟩ <;> decide

/-- What a supported word count says of its row (R120, R131). -/
theorem supportedWords_row {n : Nat} (h : supportedWords n = true) :
    supportedBytes (bytesOfWords n) = true ∧ csOfBytes (bytesOfWords n) = csOfWords n ∧
      wordsOfBytes (bytesOfWords n) = n ∧ 0 < n ∧ n ≤ 24 ∧ csOfWords n ≤ 8 ∧ bytesOfWords n ≤ 32 := by
  rcases supportedWords_cases h with ⟨rfl, -, -⟩ | ⟨rfl, -, -⟩ | ⟨rfl, -, -⟩ | ⟨rfl, -, -⟩ | ⟨rfl, -, -⟩ <;> decide

theorem encodeCore_chunk_getD_lt (ent : Bytes) (i : Nat) : (encodeCore ent).chunks.getD i 0 < 2048 := by
  by_cases h : i < (encodeCore ent).chunks.length
  · rw [List.getD_eq_getElem _ _ h]
    exact encodeCore_chunk_lt ent _ (List.getElem_mem h)
  · rw [List.getD_eq_default _ _ (by omega)]
    omega

/-- The first m of n bits of a number are its high part. -/
theorem val_take_bitsN {n m v : Nat} (hv : v < 2 ^ n) : val ((bitsN n v).take m) = v >>> (n - m) := by
  have hs : val (bitsN n v) = v := by rw [val_bitsN, Nat.mod_eq_of_lt hv]
  have hd := val_lt ((bitsN n v).drop m)
  rw [← List.take_append_drop m (bitsN n v), val_append] at hs
  rw [List.length_drop, bitsN_length] at hs hd
  rw [Nat.shiftRight_eq_div_pow]
  conv_rhs => rw [← hs]
  rw [Nat.add_comm, Nat.add_mul_div_right _ _ (by positivity), Nat.div_eq_of_lt hd, zero_add]

/-- The groups of a concatenation whose first part is a whole number of groups. -/
theorem groups_append {k m : Nat} {a : Bits} (b : Bits) (n : Nat) (h : a.length = k * m) :
    groups k (m + n) (a ++ b) = groups k m a ++ groups k n b := by
  induction m generalizing a with
  | zero =>
    have : a = [] := List.length_eq_zero_iff.1 (by simpa using h)
    simp [this, groups]
  | succ m ih =>
    have hk : k ≤ a.length := by rw [h, Nat.mul_succ]; omega
    rw [show m + 1 + n = (m + n) + 1 by omega, groups, groups, List.cons_append, List.take_append_of_le_length hk,
      List.drop_append_of_le_length hk, ih]
    rw [List.length_drop, h, Nat.mul_succ]; omega

theorem checksum_length (b : Bytes) {nBits : Nat} (h : nBits ≤ 8) : (checksum b nBits).length = nBits := by
  simp [checksum, h]

/-- The spliced string fills n groups of 11 bits exactly (R125). -/
theorem splice_length {ent : Bytes} (h : supportedBytes ent.length = true) :
    (splice ent).length = 11 * wordsOfBytes ent.length := by
  rcases supportedBytes_cases h with ⟨hl, hc, hw⟩ | ⟨hl, hc, hw⟩ | ⟨hl, hc, hw⟩ | ⟨hl, hc, hw⟩ | ⟨hl, hc, hw⟩ <;>
    rw [splice, List.length_append, bytesToBits_length, checksum_length _ (by omega)] <;> omega

/-- Groups that exhaust a bit string, read as numbers and written back, give the string. -/
theorem indexBits_groups (n : Nat) (s : Bits) (h : s.length = 11 * n) :
    indexBits ((groups 11 n s).map val) = s := by
  induction n generalizing s with
  | zero => cases s <;> simp_all [groups, indexBits]
  | succ n ih =>
    have ht : (s.take 11).length = 11 := by rw [List.length_take]; omega
    have hb : bitsN 11 (val (s.take 11)) = s.take 11 := by
      have := bitsN_val (s.take 11)
      rwa [ht] at this
    have hd := ih (s.drop 11) (by rw [List.length_drop]; omega)
    rw [groups, List.map_cons, indexBits, List.flatMap_cons, hb]
    rw [indexBits] at hd
    rw [hd, List.take_append_drop]

/-- The string of an encoding's chunks is the spliced string it was cut from (R125, R128). -/
theorem indexBits_chunks {ent : Bytes} (h : supportedBytes ent.length = true) :
    indexBits (encodeCore ent).chunks = splice ent :=
  indexBits_groups _ _ (splice_length h)

/-- Cutting the string of 11-bit indices into groups gives the indices back (R128). -/
theorem groups_indexBits (ix : List Nat) (h : ∀ i ∈ ix, i < 2048) :
    (groups 11 ix.length (indexBits ix)).map val = ix := by
  induction ix with
  | nil => rfl
  | cons i ix ih =>
    have hi := h i (by simp)
    rw [List.length_cons, groups, indexBits, List.flatMap_cons, List.take_left' (by simp), List.drop_left' (by simp),
      List.map_cons, val_bitsN, Nat.mod_eq_of_lt (by omega)]
    exact congrArg _ (ih fun j hj => h j (by simp [hj]))

end Sys2Proof.Machine
end

