-- ==== Sys2Proof/Laws/Operands.lean ====
section
/-!
SUPPORT. The laws of packing bytes into registers (10_state R28, R30, R31, 20_memory R66).
-/

namespace Sys2Proof.Machine

@[simp] theorem getElem_tabulate {α : Type} (n : Nat) (f : Nat → α) (i : Nat) (h : i < n) : (tabulate n f)[i] = f i := by
  simp [tabulate]

theorem byteOf_packWord_0 (a b c d : Byte) : byteOf (packWord a b c d) 0 = a := by
  apply BitVec.eq_of_getLsbD_eq
  intro i hi
  simp [byteOf, packWord, hi]
  grind

theorem byteOf_packWord_1 (a b c d : Byte) : byteOf (packWord a b c d) 1 = b := by
  apply BitVec.eq_of_getLsbD_eq
  intro i hi
  simp [byteOf, packWord, hi]
  grind

theorem byteOf_packWord_2 (a b c d : Byte) : byteOf (packWord a b c d) 2 = c := by
  apply BitVec.eq_of_getLsbD_eq
  intro i hi
  simp [byteOf, packWord, hi]
  grind

theorem byteOf_packWord_3 (a b c d : Byte) : byteOf (packWord a b c d) 3 = d := by
  apply BitVec.eq_of_getLsbD_eq
  intro i hi
  simp [byteOf, packWord, hi]
  rw [BitVec.getLsbD_append, if_pos hi, BitVec.getLsbD_eq_getElem]

/-- What is written into eight registers is read back byte by byte, zero beyond the bytes written. -/
theorem blockByte_blockOfBytes (b : Bytes) (k : Nat) (h : k < 32) : blockByte (blockOfBytes b) k = b.getD k 0 := by
  have h4 : k / 4 < 8 := by omega
  have hm : k % 4 = 0 ∨ k % 4 = 1 ∨ k % 4 = 2 ∨ k % 4 = 3 := by omega
  rcases hm with hm | hm | hm | hm <;>
    simp only [blockByte, blockOfBytes, hm, Vector.getElem?_eq_getElem h4, getElem_tabulate, Option.getD_some,
      byteOf_packWord_0, byteOf_packWord_1, byteOf_packWord_2, byteOf_packWord_3] <;>
    congr 1 <;> omega

/-- Bit j of byte k of eight registers is bit 24 - 8(k mod 4) + j of register k div 4. -/
theorem getLsbD_blockByte (blk : Block) (k : Nat) (h : k < 32) (j : Nat) (hj : j < 8) :
    (blockByte blk k).getLsbD j = blk[k / 4].getLsbD (24 - 8 * (k % 4) + j) := by
  simp [blockByte, byteOf, Vector.getElem?_eq_getElem (by omega : k / 4 < 8), hj]

@[simp] theorem blockBytes_length (blk : Block) : (blockBytes blk).length = 32 := by simp [blockBytes]

@[simp] theorem entBytes_length (s : State) (len : Nat) (h : len ≤ 32) : (entBytes s len).length = len := by
  simp [entBytes, h]

@[simp] theorem slotWords_length (s : State) (n : Nat) : (slotWords s n).length = n := by simp [slotWords]

/-- The 32 bytes of registers written with at most 32 bytes: these bytes, then zeros. -/
theorem blockBytes_blockOfBytes (b : Bytes) (h : b.length ≤ 32) :
    blockBytes (blockOfBytes b) = b ++ List.replicate (32 - b.length) 0 := by
  apply List.ext_getElem
  · simp; omega
  · intro k hk _
    have hk' : k < 32 := by simpa using hk
    simp only [blockBytes, List.getElem_map, List.getElem_range, blockByte_blockOfBytes b k hk']
    by_cases hb : k < b.length
    · simp [List.getElem_append_left, hb]
    · rw [List.getElem_append_right (by omega)]
      simp [List.getD, List.getElem?_eq_none (by omega : b.length ≤ k)]

/-- A word without the byte 0x00 that fits a slot is read back whole (10_state R31). -/
theorem slotWord_blockOfBytes (w : Bytes) (h : w.length ≤ 32) (h0 : 0 ∉ w) : slotWord (blockOfBytes w) = w := by
  rw [slotWord, blockBytes_blockOfBytes w h, List.takeWhile_append_of_pos]
  · cases hn : 32 - w.length <;> simp [List.replicate_succ]
  · intro a ha
    simp only [decide_eq_true_eq]
    rintro rfl
    exact h0 ha

end Sys2Proof.Machine
end

