-- ==== Sys2Proof/Laws/State.lean ====
section
/-!
SUPPORT. What each field of the state is after each update, so that no later proof unfolds a record update.
-/

namespace Sys2Proof.Machine

@[simp] theorem raiseErr_cmd (e : ErrCode) (pos : Nat) (s : State) :
    (raiseErr e pos s).cmd = s.cmd := rfl
@[simp] theorem raiseErr_status (e : ErrCode) (pos : Nat) (s : State) :
    (raiseErr e pos s).status = statusError := rfl
@[simp] theorem raiseErr_errinfo (e : ErrCode) (pos : Nat) (s : State) :
    (raiseErr e pos s).errinfo = errinfoOf e pos := rfl
@[simp] theorem raiseErr_result (e : ErrCode) (pos : Nat) (s : State) :
    (raiseErr e pos s).result = s.result := rfl
@[simp] theorem raiseErr_lang (e : ErrCode) (pos : Nat) (s : State) :
    (raiseErr e pos s).lang = s.lang := rfl
@[simp] theorem raiseErr_entW (e : ErrCode) (pos : Nat) (s : State) :
    (raiseErr e pos s).entW = s.entW := rfl
@[simp] theorem raiseErr_idx (e : ErrCode) (pos : Nat) (s : State) :
    (raiseErr e pos s).idx = s.idx := rfl
@[simp] theorem raiseErr_wordW (e : ErrCode) (pos : Nat) (s : State) :
    (raiseErr e pos s).wordW = s.wordW := rfl
@[simp] theorem raiseErr_wl (e : ErrCode) (pos : Nat) (s : State) :
    (raiseErr e pos s).wl = s.wl := rfl
@[simp] theorem raiseErr_rngScript (e : ErrCode) (pos : Nat) (s : State) :
    (raiseErr e pos s).rngScript = s.rngScript := rfl
@[simp] theorem raiseErr_draws (e : ErrCode) (pos : Nat) (s : State) :
    (raiseErr e pos s).draws = s.draws := rfl
@[simp] theorem raiseErr_inputs (e : ErrCode) (pos : Nat) (s : State) :
    (raiseErr e pos s).inputs = s.inputs := rfl
@[simp] theorem raiseErr_responses (e : ErrCode) (pos : Nat) (s : State) :
    (raiseErr e pos s).responses = s.responses := rfl

@[simp] theorem complete_cmd (s : State) :
    (complete s).cmd = s.cmd := rfl
@[simp] theorem complete_status (s : State) :
    (complete s).status = statusSuccess := rfl
@[simp] theorem complete_errinfo (s : State) :
    (complete s).errinfo = 0 := rfl
@[simp] theorem complete_result (s : State) :
    (complete s).result = s.result := rfl
@[simp] theorem complete_lang (s : State) :
    (complete s).lang = s.lang := rfl
@[simp] theorem complete_entW (s : State) :
    (complete s).entW = s.entW := rfl
@[simp] theorem complete_idx (s : State) :
    (complete s).idx = s.idx := rfl
@[simp] theorem complete_wordW (s : State) :
    (complete s).wordW = s.wordW := rfl
@[simp] theorem complete_wl (s : State) :
    (complete s).wl = s.wl := rfl
@[simp] theorem complete_rngScript (s : State) :
    (complete s).rngScript = s.rngScript := rfl
@[simp] theorem complete_draws (s : State) :
    (complete s).draws = s.draws := rfl
@[simp] theorem complete_inputs (s : State) :
    (complete s).inputs = s.inputs := rfl
@[simp] theorem complete_responses (s : State) :
    (complete s).responses = s.responses := rfl

@[simp] theorem commit_cmd (ent : Bytes) (n cs c : Nat) (ix : List Nat) (s : State) :
    (commit ent n cs c ix s).cmd = s.cmd := rfl
@[simp] theorem commit_status (ent : Bytes) (n cs c : Nat) (ix : List Nat) (s : State) :
    (commit ent n cs c ix s).status = s.status := rfl
@[simp] theorem commit_errinfo (ent : Bytes) (n cs c : Nat) (ix : List Nat) (s : State) :
    (commit ent n cs c ix s).errinfo = s.errinfo := rfl
@[simp] theorem commit_result (ent : Bytes) (n cs c : Nat) (ix : List Nat) (s : State) :
    (commit ent n cs c ix s).result = resultOf n ent.length cs c := rfl
@[simp] theorem commit_lang (ent : Bytes) (n cs c : Nat) (ix : List Nat) (s : State) :
    (commit ent n cs c ix s).lang = Config.langCode s.wl.tag := rfl
@[simp] theorem commit_entW (ent : Bytes) (n cs c : Nat) (ix : List Nat) (s : State) :
    (commit ent n cs c ix s).entW = blockOfBytes ent := rfl
@[simp] theorem commit_idx (ent : Bytes) (n cs c : Nat) (ix : List Nat) (s : State) :
    (commit ent n cs c ix s).idx = tabulate 24 fun i => if i < n then BitVec.ofNat 32 (ix.getD i 0) else 0 := rfl
@[simp] theorem commit_wordW (ent : Bytes) (n cs c : Nat) (ix : List Nat) (s : State) :
    (commit ent n cs c ix s).wordW = tabulate 24 fun i => if i < n then blockOfBytes (wordAt s.wl (ix.getD i 0)) else .replicate 8 0 := rfl
@[simp] theorem commit_wl (ent : Bytes) (n cs c : Nat) (ix : List Nat) (s : State) :
    (commit ent n cs c ix s).wl = s.wl := rfl
@[simp] theorem commit_rngScript (ent : Bytes) (n cs c : Nat) (ix : List Nat) (s : State) :
    (commit ent n cs c ix s).rngScript = s.rngScript := rfl
@[simp] theorem commit_draws (ent : Bytes) (n cs c : Nat) (ix : List Nat) (s : State) :
    (commit ent n cs c ix s).draws = s.draws := rfl
@[simp] theorem commit_inputs (ent : Bytes) (n cs c : Nat) (ix : List Nat) (s : State) :
    (commit ent n cs c ix s).inputs = s.inputs := rfl
@[simp] theorem commit_responses (ent : Bytes) (n cs c : Nat) (ix : List Nat) (s : State) :
    (commit ent n cs c ix s).responses = s.responses := rfl

@[simp] theorem resetRegisters_cmd (s : State) :
    (resetRegisters s).cmd = 0 := rfl
@[simp] theorem resetRegisters_status (s : State) :
    (resetRegisters s).status = 0 := rfl
@[simp] theorem resetRegisters_errinfo (s : State) :
    (resetRegisters s).errinfo = 0 := rfl
@[simp] theorem resetRegisters_result (s : State) :
    (resetRegisters s).result = 0 := rfl
@[simp] theorem resetRegisters_lang (s : State) :
    (resetRegisters s).lang = 0 := rfl
@[simp] theorem resetRegisters_entW (s : State) :
    (resetRegisters s).entW = .replicate 8 0 := rfl
@[simp] theorem resetRegisters_idx (s : State) :
    (resetRegisters s).idx = .replicate 24 0 := rfl
@[simp] theorem resetRegisters_wordW (s : State) :
    (resetRegisters s).wordW = .replicate 24 (.replicate 8 0) := rfl
@[simp] theorem resetRegisters_wl (s : State) :
    (resetRegisters s).wl = s.wl := rfl
@[simp] theorem resetRegisters_rngScript (s : State) :
    (resetRegisters s).rngScript = s.rngScript := rfl
@[simp] theorem resetRegisters_draws (s : State) :
    (resetRegisters s).draws = s.draws := rfl
@[simp] theorem resetRegisters_inputs (s : State) :
    (resetRegisters s).inputs = s.inputs := rfl
@[simp] theorem resetRegisters_responses (s : State) :
    (resetRegisters s).responses = s.responses := rfl

@[simp] theorem respond_cmd (r : Response) (s : State) :
    (respond r s).cmd = s.cmd := rfl
@[simp] theorem respond_status (r : Response) (s : State) :
    (respond r s).status = s.status := rfl
@[simp] theorem respond_errinfo (r : Response) (s : State) :
    (respond r s).errinfo = s.errinfo := rfl
@[simp] theorem respond_result (r : Response) (s : State) :
    (respond r s).result = s.result := rfl
@[simp] theorem respond_lang (r : Response) (s : State) :
    (respond r s).lang = s.lang := rfl
@[simp] theorem respond_entW (r : Response) (s : State) :
    (respond r s).entW = s.entW := rfl
@[simp] theorem respond_idx (r : Response) (s : State) :
    (respond r s).idx = s.idx := rfl
@[simp] theorem respond_wordW (r : Response) (s : State) :
    (respond r s).wordW = s.wordW := rfl
@[simp] theorem respond_wl (r : Response) (s : State) :
    (respond r s).wl = s.wl := rfl
@[simp] theorem respond_rngScript (r : Response) (s : State) :
    (respond r s).rngScript = s.rngScript := rfl
@[simp] theorem respond_draws (r : Response) (s : State) :
    (respond r s).draws = s.draws := rfl
@[simp] theorem respond_inputs (r : Response) (s : State) :
    (respond r s).inputs = s.inputs := rfl
@[simp] theorem respond_responses (r : Response) (s : State) :
    (respond r s).responses = s.responses ++ [r] := rfl

end Sys2Proof.Machine
end

