-- ==== Sys2Proof/Laws/Wordlist.lean ====
section
/-!
SUPPORT. The laws of the word_index_mapper (40_datapath R135 to R141).
-/

namespace Sys2Proof.Machine

/-- What a valid wordlist satisfies (R141), as propositions. -/
theorem wlValid_iff (wl : Wordlist) : wlValid wl = true ↔
    wl.available = true ∧ wl.words.length = 2048 ∧ wl.words.Nodup ∧
      (∀ w ∈ wl.words, w ≠ [] ∧ 0 ∉ w ∧ w.length ≤ 32) ∧ ∀ w ∈ wl.words, fold wl.tag w = w := by
  simp [wlValid, fitsSlot, and_assoc]

/-- An index found is below 2048 and names the folded word. -/
theorem indexOf_some {wl : Wordlist} {w : Bytes} {i : Nat} (h : indexOf wl w = some i) :
    i < 2048 ∧ wl.words[i]? = some (fold wl.tag w) := by
  rw [indexOf, List.findIdx?_eq_some_iff_getElem] at h
  obtain ⟨hi, hp, -⟩ := h
  have hi' := hi
  rw [List.length_take] at hi'
  refine ⟨by omega, ?_⟩
  rw [List.getElem_take, beq_iff_eq] at hp
  rw [← hp]
  exact List.getElem?_eq_getElem _

/-- Under a valid wordlist, every index is found again from its word. -/
theorem indexOf_wordAt {wl : Wordlist} (hv : wlValid wl = true) {i : Nat} (hi : i < 2048) :
    indexOf wl (wordAt wl i) = some i := by
  obtain ⟨-, hl, hn, -, hf⟩ := (wlValid_iff wl).1 hv
  have hi' : i < wl.words.length := by omega
  have hw : wordAt wl i = wl.words[i] := by simp [wordAt, hi']
  rw [indexOf, hw, hf _ (List.getElem_mem hi'), List.findIdx?_eq_some_iff_getElem]
  refine ⟨by simp [hl, hi], by simp, fun j hj => ?_⟩
  simp only [List.getElem_take, beq_iff_eq]
  intro he
  have := (List.Nodup.getElem_inj_iff hn).1 he
  omega

/-- A word of a valid wordlist fits a slot. -/
theorem wordAt_fits {wl : Wordlist} (hv : wlValid wl = true) {i : Nat} (hi : i < 2048) :
    0 ∉ wordAt wl i ∧ (wordAt wl i).length ≤ 32 := by
  obtain ⟨-, hl, -, hk, -⟩ := (wlValid_iff wl).1 hv
  have hi' : i < wl.words.length := by omega
  have hw : wordAt wl i = wl.words[i] := by simp [wordAt, hi']
  rw [hw]
  exact (hk _ (List.getElem_mem hi')).2

/-- Looking up words that all have an index gives the indices in order. -/
theorem lookupFrom_map {wl : Wordlist} (f : Nat → Bytes) (idx : List Nat)
    (h : ∀ i ∈ idx, indexOf wl (f i) = some i) (pos : Nat) : lookupFrom wl pos (idx.map f) = .ok idx := by
  induction idx generalizing pos with
  | nil => rfl
  | cons i idx ih =>
    simp only [List.map_cons, lookupFrom, h i (by simp), ih (fun j hj => h j (by simp [hj])) (pos + 1)]

/-- The two answers of a lookup: the indices of all the words in order, or the first word that has none. -/
theorem lookupFrom_cases (wl : Wordlist) (pos : Nat) (ws : List Bytes) :
    (∃ idx, lookupFrom wl pos ws = .ok idx ∧ ws.map (indexOf wl) = idx.map some) ∨
    (∃ p, lookupFrom wl pos ws = .unknownWord (pos + p) ∧ p < ws.length ∧ (ws.map (indexOf wl))[p]? = some none ∧
      ∀ q < p, (ws.map (indexOf wl))[q]? ≠ some none) := by
  induction ws generalizing pos with
  | nil => exact .inl ⟨[], rfl, rfl⟩
  | cons w ws ih =>
    cases hw : indexOf wl w with
    | none => exact .inr ⟨0, by simp [lookupFrom, hw], by simp, by simp [hw], by simp⟩
    | some i =>
      rcases ih (pos + 1) with ⟨idx, h, hm⟩ | ⟨p, h, hp, hn, hq⟩
      · exact .inl ⟨i :: idx, by simp [lookupFrom, hw, h], by simp [hw, hm]⟩
      · refine .inr ⟨p + 1, by simp [lookupFrom, hw, h]; omega, by simpa using hp, by simpa using hn, fun q hq' => ?_⟩
        cases q with
        | zero => simp [hw]
        | succ q => simpa using hq q (by omega)

/-- Looked-up indices are as many as the words, and 11-bit values. -/
theorem lookupAll_ok {wl : Wordlist} {ws : List Bytes} {ix : List Nat} (h : lookupAll wl ws = .ok ix) :
    ix.length = ws.length ∧ ∀ i ∈ ix, i < 2048 := by
  rcases lookupFrom_cases wl 1 ws with ⟨idx, h', hm⟩ | ⟨p, h', -⟩
  · obtain rfl : idx = ix := by rw [lookupAll, h'] at h; simpa using h
    refine ⟨by simpa using (congrArg List.length hm).symm, fun i hi => ?_⟩
    obtain ⟨w, -, hw⟩ := List.mem_map.1 (hm ▸ List.mem_map.2 ⟨i, hi, rfl⟩ : some i ∈ ws.map (indexOf wl))
    exact (indexOf_some hw).1
  · rw [lookupAll, h'] at h
    simp at h

end Sys2Proof.Machine
end

