-- ==== Sys2Proof/Laws/Exec.lean ====
section
/-!
SUPPORT. One lemma per shared operation that says everything it can do, and one per meaning and per step.
-/

namespace Sys2Proof.Machine

/-- A draw takes one answer of the random source and moves nothing but the model's own view of that source. -/
theorem drawRandom_eq (len : Nat) (s : State) : ∃ a : Option (Vector Byte 32), ∃ script k,
    drawRandom len s = (a.map fun r => r.toList.take len, { s with rngScript := script, draws := k }) := by
  cases h : s.rngScript with
  | nil => exact ⟨Config.randomDraw s.draws, [], s.draws + 1, by simp [drawRandom, h]⟩
  | cons a rest => exact ⟨a, rest, s.draws, by simp [drawRandom, h]⟩

/-- A drawn string has the length asked for, up to the 32 bytes the buffer holds. -/
theorem drawRandom_length {len : Nat} {s s' : State} {r : Bytes} (hl : len ≤ 32)
    (h : drawRandom len s = (some r, s')) : r.length = len := by
  obtain ⟨a, script, k, he⟩ := drawRandom_eq len s
  rw [he, Prod.mk.injEq] at h
  obtain ⟨x, -, rfl⟩ := Option.map_eq_some_iff.1 h.1
  simp [hl]

/-- Encoding never takes the WordIndexOutOfRange arm: it commits and completes (60_exceptions R225). -/
theorem encodeEntropy_eq (ent : Bytes) (s : State) : encodeEntropy ent s =
    complete (commit ent (wordsOfBytes ent.length) (csOfBytes ent.length) (cval ent (csOfBytes ent.length))
      (encodeCore ent).chunks s) := by
  have h : (encodeCore ent).chunks.any (fun x => decide (2048 ≤ x)) = false := by
    rw [List.any_eq_false]
    intro c hc
    have := encodeCore_chunk_lt ent c hc
    simp; omega
  rw [encodeEntropy, h]
  rfl

/-- Acceptance: dropped while BUSY, else CMD, STATUS and ERRINFO are written (20_memory R72). -/
theorem acceptCommand_cases (v : Word32) (s : State) :
    (s.busy = true ∧ acceptCommand v s = s) ∨
    (s.busy = false ∧ acceptCommand v s = { s with cmd := v, status := statusBusy, errinfo := 0 }) := by
  cases h : s.busy <;> simp [acceptCommand, h]

/-- What ENCODE can do: one of its two errors, or the encoding. -/
theorem execEncode_cases (len : Nat) (s : State) :
    (supportedBytes len = false ∧ execEncode len s = .next (raiseErr .invalidEntropyLength 0 s)) ∨
    (supportedBytes len = true ∧ wlValid s.wl = false ∧ execEncode len s = .next (raiseErr .wordlistUnavailable 0 s)) ∨
    (supportedBytes len = true ∧ wlValid s.wl = true ∧ execEncode len s = .next (encodeEntropy (entBytes s len) s)) := by
  cases h1 : supportedBytes len <;> cases h2 : wlValid s.wl <;> simp [execEncode, h1, h2]

/-- What ENCODE_RANDOM can do: one of its three errors, or the encoding of the drawn bytes. -/
theorem execEncodeRandom_cases (wc : Nat) (s : State) :
    (supportedWords wc = false ∧ execEncodeRandom wc s = .next (raiseErr .invalidWordCount 0 s)) ∨
    (supportedWords wc = true ∧ wlValid s.wl = false ∧
      execEncodeRandom wc s = .next (raiseErr .wordlistUnavailable 0 s)) ∨
    (supportedWords wc = true ∧ wlValid s.wl = true ∧ ∃ s', drawRandom (bytesOfWords wc) s = (none, s') ∧
      execEncodeRandom wc s = .next (raiseErr .randomSourceFailure 0 s')) ∨
    (supportedWords wc = true ∧ wlValid s.wl = true ∧ ∃ r s', drawRandom (bytesOfWords wc) s = (some r, s') ∧
      execEncodeRandom wc s = .next (encodeEntropy r s')) := by
  cases h1 : supportedWords wc <;> cases h2 : wlValid s.wl <;> simp [execEncodeRandom, h1, h2]
  rcases h3 : drawRandom (bytesOfWords wc) s with ⟨_ | r, s'⟩ <;> simp

/-- What DECODE can do: one of its first three errors, or the work on the looked-up indices. -/
theorem execDecode_cases (n : Nat) (verify : Bool) (s : State) :
    (supportedWords n = false ∧ execDecode n verify s = .next (raiseErr .invalidWordCount 0 s)) ∨
    (supportedWords n = true ∧ wlValid s.wl = false ∧
      execDecode n verify s = .next (raiseErr .wordlistUnavailable 0 s)) ∨
    (supportedWords n = true ∧ wlValid s.wl = true ∧ ∃ p, lookupAll s.wl (slotWords s n) = .unknownWord p ∧
      execDecode n verify s = .next (raiseErr .unknownWord p s)) ∨
    (supportedWords n = true ∧ wlValid s.wl = true ∧ ∃ idx, lookupAll s.wl (slotWords s n) = .ok idx ∧
      execDecode n verify s = .next (decodeIndices n verify idx s)) := by
  cases h1 : supportedWords n <;> cases h2 : wlValid s.wl <;> simp [execDecode, h1, h2]
  rcases h3 : lookupAll s.wl (slotWords s n) with p | idx <;> simp

/-- The end of DECODE: ChecksumMismatch if it verifies and the values differ, else the commit. -/
theorem decodeIndices_cases (n : Nat) (verify : Bool) (idx : List Nat) (s : State) :
    (verify = true ∧ (split idx).c ≠ cval (split idx).ent (csOfWords n) ∧
      decodeIndices n verify idx s = raiseErr .checksumMismatch 0 s) ∨
    ((verify = true → (split idx).c = cval (split idx).ent (csOfWords n)) ∧
      decodeIndices n verify idx s = complete (commit (split idx).ent n (csOfWords n) (split idx).c idx s)) := by
  cases verify <;> by_cases h : (split idx).c = cval (split idx).ent (csOfWords n) <;> simp [decodeIndices, h]

/-- The engine's step: IllegalCommand, or the decoded command. -/
theorem engineStep_cases (s : State) :
    (∃ r, decode s.cmd = .illegal r ∧ engineStep s = .next (raiseErr .illegalCommand 0 s)) ∨
    (∃ i, decode s.cmd = .command i ∧ engineStep s = exec i s) := by
  cases h : decode s.cmd <;> simp [engineStep, h]

/-- The engine's turn: a step exactly while BUSY = 1. -/
theorem engineTurn_cases (s : State) :
    (s.busy = true ∧ engineTurn s = engineStep s) ∨ (s.busy = false ∧ engineTurn s = .next s) := by
  cases h : s.busy <;> simp [engineTurn, h]

/-- A host read records one answer and at most takes one free value. -/
theorem hostRead_eq (off : BitVec 12) (width : Width) (s : State) :
    ∃ a k, hostRead off width s = { s with responses := s.responses ++ [a], draws := k } := by
  unfold hostRead
  split
  · exact ⟨.busError, s.draws, rfl⟩
  · split
    · exact ⟨_, s.draws + 1, rfl⟩
    · exact ⟨_, s.draws, rfl⟩

/-- What a host write can do to the state, besides recording its answer: nothing, an acceptance, or one register of
ENT_W or WORD_W while BUSY = 0. -/
theorem hostWrite_cases (off : BitVec 12) (width : Width) (v : Word32) (s : State) : ∃ a,
    hostWrite off width v s = { s with responses := s.responses ++ [a] } ∨
    (s.busy = false ∧ hostWrite off width v s =
      { s with cmd := v, status := statusBusy, errinfo := 0, responses := s.responses ++ [a] }) ∨
    (s.busy = false ∧ ∃ e, hostWrite off width v s = { s with entW := e, responses := s.responses ++ [a] }) ∨
    (s.busy = false ∧ ∃ w, hostWrite off width v s = { s with wordW := w, responses := s.responses ++ [a] }) := by
  unfold hostWrite
  cases target off width with
  | none => exact ⟨.busError, .inl rfl⟩
  | some r =>
    refine ⟨.writeOk, ?_⟩
    cases hb : s.busy <;> cases r <;> simp [writeReg, acceptCommand, hb, respond]

/-- One step of the machine, by whose turn it is. -/
theorem step_cases (s : State) :
    (s.inputs = [] ∧ step s = engineTurn s) ∨
    (∃ e rest, s.inputs = e :: rest ∧ step s = takeInput e { s with inputs := rest }) := by
  cases h : s.inputs <;> simp [step, advance, h]

end Sys2Proof.Machine
end

