-- ==== Sys2Proof/Laws/PerInstr.lean ====
section
/-!
SUPPORT. Statements about every command as syntax, one lemma per constructor: the word it assembles to stands in the row
of the opcode map that carries its name (30_encoding R99).
-/

namespace Sys2Proof.Laws.EncodeRow

/-- The row of a command: its mask and its match (30_encoding R99). -/
def row : Instr → Word32 × Word32
  | .encode _ => (0xFFFF00FF, 0x00000001)
  | .encodeRandom _ => (0xFFFF00FF, 0x00000002)
  | .decode _ _ => (0xFFFF00EF, 0x00000003)

/-- A well-formed command assembles to a word of its own row, with its operand in LEN [15:8]. -/
def Statement (i : Instr) : Prop :=
  i.WellFormed → Sys2Proof.encode i &&& (row i).1 = (row i).2 ∧ (Sys2Proof.encode i).extractLsb' 8 8 = BitVec.ofNat 8 i.len

/-- A fact about a length operand holds if it holds of its 256 values. -/
theorem all_lengths {p : Nat → Prop} (h : ∀ l : Fin 256, p l) (l : Nat) (hl : l < 256) : p l := h ⟨l, hl⟩

theorem encode (len : Nat) : Statement (.encode len) :=
  all_lengths (p := fun l => Sys2Proof.encode (.encode l) &&& 0xFFFF00FF = 0x00000001 ∧
    (Sys2Proof.encode (.encode l)).extractLsb' 8 8 = BitVec.ofNat 8 l) (by decide +kernel) len

theorem encodeRandom (len : Nat) : Statement (.encodeRandom len) :=
  all_lengths (p := fun l => Sys2Proof.encode (.encodeRandom l) &&& 0xFFFF00FF = 0x00000002 ∧
    (Sys2Proof.encode (.encodeRandom l)).extractLsb' 8 8 = BitVec.ofNat 8 l) (by decide +kernel) len

theorem decode (len : Nat) (verify : Bool) : Statement (.decode len verify) := by
  cases verify with
  | false => exact all_lengths (p := fun l => Sys2Proof.encode (.decode l false) &&& 0xFFFF00EF = 0x00000003 ∧
      (Sys2Proof.encode (.decode l false)).extractLsb' 8 8 = BitVec.ofNat 8 l) (by decide +kernel) len
  | true => exact all_lengths (p := fun l => Sys2Proof.encode (.decode l true) &&& 0xFFFF00EF = 0x00000003 ∧
      (Sys2Proof.encode (.decode l true)).extractLsb' 8 8 = BitVec.ofNat 8 l) (by decide +kernel) len

end Sys2Proof.Laws.EncodeRow
end

