-- ==== Sys2Proof/Laws/Result.lean ====
section
/-!
SUPPORT. What a committed and completed result holds (41_encode R162, 42_decode R191, 60_exceptions R232).
-/

namespace Sys2Proof.Machine

/-- The fields of a RESULT value are the four numbers it was made of (10_state R26, 40_datapath R131). -/
theorem resultOf_fields {n c : Nat} (hn : supportedWords n = true) (hc : c < 2 ^ csOfWords n) :
    field (resultOf n (bytesOfWords n) (csOfWords n) c) 4 0 = n ∧
    field (resultOf n (bytesOfWords n) (csOfWords n) c) 13 8 = bytesOfWords n ∧
    field (resultOf n (bytesOfWords n) (csOfWords n) c) 19 16 = csOfWords n ∧
    field (resultOf n (bytesOfWords n) (csOfWords n) c) 31 24 = c := by
  have h : ∀ n ∈ [12, 15, 18, 21, 24], ∀ c : Fin 256, (c : Nat) < 2 ^ csOfWords n →
      field (resultOf n (bytesOfWords n) (csOfWords n) c) 4 0 = n ∧
      field (resultOf n (bytesOfWords n) (csOfWords n) c) 13 8 = bytesOfWords n ∧
      field (resultOf n (bytesOfWords n) (csOfWords n) c) 19 16 = csOfWords n ∧
      field (resultOf n (bytesOfWords n) (csOfWords n) c) 31 24 = c := by decide +kernel
  have h8 : c < 256 := by
    rcases supportedWords_cases hn with ⟨-, h, -⟩ | ⟨-, h, -⟩ | ⟨-, h, -⟩ | ⟨-, h, -⟩ | ⟨-, h, -⟩ <;> rw [h] at hc <;> omega
  exact h n (by simpa [supportedWords] using hn) ⟨c, h8⟩ hc

/-- A checksum value of nBits bits is below 2^nBits (R123). -/
theorem cval_lt (b : Bytes) (nBits : Nat) (h : nBits ≤ 8) : cval b nBits < 2 ^ nBits := by
  have hb := (hashByte b).isLt
  rw [cval, Nat.shiftRight_eq_div_pow, Nat.div_lt_iff_lt_mul (by positivity), ← pow_add]
  rwa [Nat.add_sub_cancel' h]

/-- Registers written with a byte string hold it. -/
theorem holdsBytes_blockOfBytes (b : Bytes) : HoldsBytes (blockOfBytes b) b := by
  intro k h j hj
  rw [← getLsbD_blockByte _ k h j hj, blockByte_blockOfBytes b k h]

/-- What the two commands leave after a success: with 11-bit indices, an entropy of the row's length and a checksum value
of CS bits, the committed state holds the result. -/
theorem commit_holdsResult {ent : Bytes} {n c : Nat} {ix : List Nat} {s : State} (hv : wlValid s.wl = true)
    (hn : supportedWords n = true) (hl : ent.length = bytesOfWords n) (hc : c < 2 ^ csOfWords n)
    (hx : ∀ i < n, ix.getD i 0 < 2048) :
    HoldsResult (complete (commit ent n (csOfWords n) c ix s)) s.wl ent n (csOfWords n) c ix := by
  obtain ⟨f1, f2, f3, f4⟩ := resultOf_fields hn hc
  have hslot : ∀ (i : Nat) (h : i < 24), (complete (commit ent n (csOfWords n) c ix s)).wordW[i] =
      if i < n then blockOfBytes (wordAt s.wl (ix.getD i 0)) else .replicate 8 0 := fun i h => by simp
  have hw : ∀ (i : Nat) (h : i < 24), wordAtSlot (complete (commit ent n (csOfWords n) c ix s)) i =
      slotWord (if i < n then blockOfBytes (wordAt s.wl (ix.getD i 0)) else .replicate 8 0) := fun i h => by
    rw [wordAtSlot, Vector.getElem?_eq_getElem h, hslot i h]; rfl
  refine ⟨rfl, rfl, fun i h hi => ⟨?_, ?_, ?_⟩, fun i h hi => ⟨?_, ?_, fun j hj => ?_⟩, fun k hk => ?_,
    holdsBytes_blockOfBytes ent, rfl, ?_, ?_, ?_, ?_, rfl⟩
  · have := hx i hi
    simp only [complete_idx, commit_idx, getElem_tabulate, if_pos hi, BitVec.toNat_ofNat]
    omega
  · rw [hw i h, if_pos hi]
    exact slotWord_blockOfBytes _ (wordAt_fits hv (hx i hi)).2 (wordAt_fits hv (hx i hi)).1
  · rw [hslot i h, if_pos hi]
    exact holdsBytes_blockOfBytes _
  · simp only [complete_idx, commit_idx, getElem_tabulate, if_neg (Nat.not_lt.2 hi)]
  · rw [hw i h, if_neg (Nat.not_lt.2 hi)]
    decide +kernel
  · rw [hslot i h, if_neg (Nat.not_lt.2 hi)]
    simp
  · exact blockByte_blockOfBytes ent k hk
  · simpa [State.wcount, hl] using f1
  · simpa [State.entlen, hl] using f2
  · simpa [State.cslen, hl] using f3
  · simpa [State.csval, hl] using f4

end Sys2Proof.Machine
end

