-- ==== Sys2Proof/Machine/HostProgram.lean ====
section
/-!
DEFINITION. The host-program notation of 30_encoding R101 to R103: what a host's sequence of accesses expands to. It is no
instruction set of the block; it only spells lists of events.
-/

namespace Sys2Proof.Machine

/-- `DECODE.V n` (R101). -/
def asmDecodeV (n : Nat) : Instr := .decode n true

/-- `DECODE.NV n` (R101). -/
def asmDecodeNV (n : Nat) : Instr := .decode n false

/-- `DECODE n`, without a suffix, is `DECODE.V n` (R102). -/
def asmDecode (n : Nat) : Instr := asmDecodeV n

/-- `WR reg, v`. -/
def hostWr (r : Reg) (v : Word32) : Input := .write (BitVec.ofNat 12 r.offset) .w4 v

/-- `RD reg`. -/
def hostRd (r : Reg) : Input := .read (BitVec.ofNat 12 r.offset) .w4

/-- `CMD <command>`. -/
def hostCmd (i : Instr) : Input := hostWr .cmd (encode i)

/-- `POLL` on the schedule in which the engine takes its turn after `k` of the reads: those see BUSY = 1, the last one
BUSY = 0. -/
def hostPoll (k : Nat) : List Input := List.replicate k (hostRd .status) ++ [.engine, hostRd .status]

/-- `WRENT b0 ... b(L-1)`: ceil(L/4) writes, missing bytes 0; at most the eight registers there are. -/
def hostWrEnt (b : Bytes) : List Input :=
  ((List.finRange 8).take ((b.length + 3) / 4)).map fun j => hostWr (.ent j) ((blockOfBytes b).get j)

/-- `WRWORD i, "text"` on the text's bytes: eight writes, padded with 0x00. -/
def hostWrWord (i : Fin 24) (w : Bytes) : List Input :=
  (List.finRange 8).map fun j => hostWr (.word i j) ((blockOfBytes w).get j)

end Sys2Proof.Machine
end

