-- ==== Sys2Proof/Tests/Slice0.lean ====
section
/-!
SUPPORT. The model's own tests: the command words of the spec, one step of each command on small states, and for every
statement with hypotheses a state that meets them. Expected values are those of 95_test_vectors or worked out by hand.
-/

namespace Sys2Proof.Tests

open Sys2Proof Sys2Proof.Machine

-- One theorem after another: elaborated side by side they need more threads than the memory limit gives stacks for.
set_option Elab.async false

/-! ### Well-formedness -/

theorem test_encode_operand_256_refused : ¬ (Instr.encode 256).WellFormed := by decide
theorem test_encodeRandom_operand_256_refused : ¬ (Instr.encodeRandom 256).WellFormed := by decide
theorem test_decode_operand_300_refused : ¬ (Instr.decode 300 true).WellFormed := by decide
theorem test_decode_operand_255_accepted : (Instr.decode 255 false).WellFormed := by decide

/-! ### Decoding, from the bit patterns of 30_encoding R99 and the vectors V-C1 to V-C12 -/

theorem test_decode_encode_16 : decode 0b00000000000000000001000000000001 = .command (.encode 16) := by decide
theorem test_decode_encodeRandom_24 : decode 0b00000000000000000001100000000010 = .command (.encodeRandom 24) := by decide
theorem test_decode_decodeV_12 : decode 0b00000000000000000000110000010011 = .command (.decode 12 true) := by decide
theorem test_decode_decodeNV_12 : decode 0b00000000000000000000110000000011 = .command (.decode 12 false) := by decide
theorem test_decode_encode_255 : decode 0x0000FF01 = .command (.encode 255) := by decide
theorem test_decode_reset_word : decode 0x00000000 = .illegal .reservedOp := by decide
theorem test_decode_verify_on_encode : decode 0x00001011 = .illegal .verifySet := by decide
theorem test_decode_verify_on_random : decode 0x00001812 = .illegal .verifySet := by decide
theorem test_decode_rsv0 : decode 0x00001021 = .illegal .reservedBits := by decide
theorem test_decode_rsv1_bit16 : decode 0x00011001 = .illegal .reservedBits := by decide
theorem test_decode_rsv1_bit31 : decode 0x80000C13 = .illegal .reservedBits := by decide
theorem test_decode_op4 : decode 0x00000004 = .illegal .reservedOp := by decide
theorem test_decode_op15 : decode 0x0000000F = .illegal .reservedOp := by decide
theorem test_assemble_decode : encode (asmDecode 24) = 0x00001813 ∧ encode (asmDecodeNV 15) = 0x00000F03 := by decide
theorem test_tableWord : decodeTableWord 32 0x00000013 = some (.decode 0 true) ∧ decodeTableWord 32 0x20 = none := by decide

/-! ### A valid wordlist and states with words in their slots -/

/-- The bytes of "abandon". -/
def abandon : Bytes := [0x61, 0x62, 0x61, 0x6E, 0x64, 0x6F, 0x6E]

/-- The bytes of "about". -/
def about : Bytes := [0x61, 0x62, 0x6F, 0x75, 0x74]

/-- "abandon" at 0 and "about" at 3 (95_test_vectors V-S1); every other word is three of the sixteen letters from `base`. -/
def testWord (base i : Nat) : Bytes :=
  if i = 0 then abandon else if i = 3 then about
  else [BitVec.ofNat 8 (base + i / 256), BitVec.ofNat 8 (base + i / 16 % 16), BitVec.ofNat 8 (base + i % 16)]

def testList (base : Nat) (tag : LangTag) : Wordlist := ⟨(List.range 2048).map (testWord base), tag, true⟩

theorem testList_words (base : Nat) (tag : LangTag) :
    (testList base tag).words = (List.range 2048).map (testWord base) := by
  simp only [testList]

/-- An ASCII word without capitals is its own folding. -/
theorem fold_lower_word (tag : LangTag) (w : Bytes)
    (h : ∀ b ∈ w, isAscii b = true ∧ asciiLower b = b) : fold tag w = w := by
  have hr : ∀ img, foldRuns img 0 false w = w := by
    intro img
    induction w with
    | nil => rfl
    | cons b w ih =>
      have hb := h b (by simp)
      simp only [foldRuns, hb.1, hb.2, if_true]
      rw [if_neg (by decide), ih fun c hc => h c (by simp [hc])]
  have hp : foldPass tag w = w := hr _
  simp [fold, hp]

theorem testWord_letters (base i : Nat) (hb : base = 0x61 ∨ base = 0x6B) (hi : i < 2048) :
    ∀ b ∈ testWord base i, 0x61 ≤ b.toNat ∧ b.toNat ≤ 0x7A := by
  intro b hm
  unfold testWord at hm
  split at hm
  · revert b; decide
  · split at hm
    · revert b; decide
    · simp only [List.mem_cons, List.not_mem_nil, or_false] at hm
      rcases hm with rfl | rfl | rfl <;> simp only [BitVec.toNat_ofNat] <;> omega

theorem testWord_length (base i : Nat) : (testWord base i).length = if i = 0 then 7 else if i = 3 then 5 else 3 := by
  unfold testWord
  split
  · rfl
  · split <;> rfl

theorem testWord_injective (base i j : Nat) (hi : i < 2048) (hj : j < 2048)
    (h : testWord base i = testWord base j) : i = j := by
  have hl := congrArg List.length h
  rw [testWord_length, testWord_length] at hl
  unfold testWord at h
  split_ifs at h hl <;> try omega
  simp only [List.cons.injEq, and_true] at h
  have h0 := congrArg BitVec.toNat h.1
  have h1 := congrArg BitVec.toNat h.2.1
  have h2 := congrArg BitVec.toNat h.2.2
  simp only [BitVec.toNat_ofNat] at h0 h1 h2
  omega

/-- The test wordlist is valid (40_datapath R141). -/
theorem testList_valid (base : Nat) (tag : LangTag) (hb : base = 0x61 ∨ base = 0x6B) :
    wlValid (testList base tag) = true := by
  rw [wlValid_iff, testList_words]
  refine ⟨rfl, by rw [List.length_map, List.length_range], ?_, ?_, ?_⟩
  · refine List.Nodup.map_on ?_ List.nodup_range
    intro i hi j hj h
    exact testWord_injective base i j (List.mem_range.1 hi) (List.mem_range.1 hj) h
  · intro w hw
    obtain ⟨i, hi, rfl⟩ := List.mem_map.1 hw
    have hl := testWord_letters base i hb (List.mem_range.1 hi)
    have hn := testWord_length base i
    refine ⟨?_, ?_, ?_⟩
    · intro h0; rw [h0, List.length_nil] at hn; split_ifs at hn
    · intro h0; have := (hl 0 h0).1; simp at this
    · rw [hn]; split_ifs <;> omega
  · intro w hw
    obtain ⟨i, hi, rfl⟩ := List.mem_map.1 hw
    refine fold_lower_word tag _ fun b hb' => ?_
    have := testWord_letters base i hb (List.mem_range.1 hi) b hb'
    refine ⟨by simp [isAscii]; omega, by rw [asciiLower, if_neg (by omega)]⟩

def wlA : Wordlist := testList 0x61 "A"
def wlB : Wordlist := testList 0x6B "B"

theorem wlA_valid : wlValid wlA = true := testList_valid _ _ (.inl rfl)
theorem wlB_valid : wlValid wlB = true := testList_valid _ _ (.inr rfl)

/-- A wordlist that is not available. -/
def wlNone : Wordlist := ⟨[], "A", false⟩

theorem wlNone_invalid : wlValid wlNone = false := by decide

/-- The reset registers with a given wordlist. -/
def start (wl : Wordlist) : State := { State.reset with wl := wl }

/-- The reset registers with the given words in the first slots. -/
def withWords (wl : Wordlist) (ws : List Bytes) : State :=
  { State.reset with wl := wl, wordW := tabulate 24 fun i => blockOfBytes (ws.getD i []) }

theorem withWords_slot (wl : Wordlist) (ws : List Bytes) (i : Nat) (hi : i < 24)
    (h : 0 ∉ ws.getD i [] ∧ (ws.getD i []).length ≤ 32) : wordAtSlot (withWords wl ws) i = ws.getD i [] := by
  simp only [wordAtSlot, withWords, Vector.getElem?_eq_getElem hi, getElem_tabulate, Option.getD_some]
  exact slotWord_blockOfBytes _ h.2 h.1

/-- The words of the given indices in the first slots. -/
def withIndices (wl : Wordlist) (ix : List Nat) : State := withWords wl (ix.map (wordAt wl))

theorem withIndices_lookup (wl : Wordlist) (hv : wlValid wl = true) (ix : List Nat) (hx : ∀ i ∈ ix, i < 2048) (i : Nat)
    (hi : i < ix.length) (h24 : i < 24) :
    indexOf (withIndices wl ix).wl (wordAtSlot (withIndices wl ix) i) = some (ix.getD i 0) := by
  have hm : ix[i] < 2048 := hx _ (List.getElem_mem hi)
  have he : (ix.map (wordAt wl)).getD i [] = wordAt wl ix[i] := by simp [List.getD, hi]
  have hg : ix.getD i 0 = ix[i] := by simp [List.getD, hi]
  rw [withIndices, withWords_slot _ _ _ h24 (by rw [he]; exact wordAt_fits hv hm), he, hg]
  exact indexOf_wordAt hv hm

/-- Sixteen zero bytes, the entropy of V-S1. -/
def zeros : Bytes := List.replicate 16 0

/-- The indices 0 (eleven times) and `c`. -/
def zerosAnd (c : Nat) : List Nat := List.replicate 11 0 ++ [c]

theorem split_zerosAnd (c : Nat) (h : c < 16) : split (zerosAnd c) = ⟨zeros, c⟩ := by
  have : ∀ c : Fin 16, split (zerosAnd c) = ⟨zeros, c⟩ := by decide +kernel
  exact this ⟨c, h⟩

theorem cval4_lt (b : Bytes) : cval b 4 < 16 := by
  have := (hashByte b).isLt
  rw [cval, Nat.shiftRight_eq_div_pow]; omega

theorem zerosAnd_small (c : Nat) (h : c < 16) : ∀ i ∈ zerosAnd c, i < 2048 := by
  intro i hi
  simp only [zerosAnd, List.mem_append, List.mem_replicate, List.mem_singleton] at hi
  omega

/-! ### One step of each command -/

/-- V-E5: the eleven indices of entropy 00 01 .. 0f that hold no checksum bit. -/
theorem test_encode_chunks :
    ((encodeCore [0x00, 0x01, 0x02, 0x03, 0x04, 0x05, 0x06, 0x07, 0x08, 0x09, 0x0A, 0x0B, 0x0C, 0x0D, 0x0E, 0x0F]).chunks).take 11
      = [0, 64, 1030, 64, 643, 28, 257, 266, 88, 771, 540] := by decide +kernel

/-- V-E22: ENCODE of 33 bytes fails with InvalidEntropyLength, before the wordlist is looked at. -/
theorem test_encode_33 (s : State) : ∃ t, exec (.encode 33) s = .next t ∧ t.errinfo = 0x00000001 ∧ t.entW = s.entW :=
  ⟨_, rfl, rfl, rfl⟩

theorem draw_A5 (s : State) : drawRandom (bytesOfWords 12) { s with rngScript := [some (.replicate 32 0xA5)] } =
    (some (List.replicate 16 0xA5), { s with rngScript := [] }) := by
  have : (Vector.replicate 32 (0xA5 : Byte)).toList.take 16 = List.replicate 16 0xA5 := by decide +kernel
  exact congrArg (fun x => (some x, { s with rngScript := [] })) this

/-- With a supported count, a valid wordlist and a draw that answers, ENCODE_RANDOM encodes the answer. -/
theorem exec_random_A5 : exec (.encodeRandom 12) { start wlA with rngScript := [some (.replicate 32 0xA5)] } =
    .next (encodeEntropy (List.replicate 16 0xA5) { start wlA with rngScript := [] }) := by
  rw [exec, execEncodeRandom, if_neg (by decide), if_neg (by simp [start, wlA_valid]), draw_A5]

/-- V-R1's draw: ENCODE_RANDOM 12 leaves the drawn bytes in ENT, and the random source's script is used up. -/
theorem test_encodeRandom_entropy : ∃ t,
    exec (.encodeRandom 12) { start wlA with rngScript := [some (.replicate 32 0xA5)] } = .next t ∧
      t.entW[3] = 0xA5A5A5A5 ∧ t.entW[4] = 0 ∧ t.rngScript = [] ∧ t.status = 0x0000000A := by
  refine ⟨_, exec_random_A5, ?_, ?_, ?_, ?_⟩ <;> rw [encodeEntropy_eq] <;> decide +kernel

/-- V-R4: the draw fails. -/
theorem test_encodeRandom_failure : ∃ t,
    exec (.encodeRandom 12) { start wlA with rngScript := [none] } = .next t ∧ t.errinfo = 0x00000006 ∧ t.entW = (start wlA).entW := by
  refine ⟨raiseErr .randomSourceFailure 0 (start wlA), ?_, rfl, rfl⟩
  rw [exec, execEncodeRandom, if_neg (by decide), if_neg (by simp [start, wlA_valid])]
  rfl

/-- The lookup of a state's words, from the lookup of each. -/
theorem lookup_withIndices (wl : Wordlist) (hv : wlValid wl = true) (ix : List Nat) (hx : ∀ i ∈ ix, i < 2048)
    (hl : ix.length ≤ 24) : lookupAll wl (slotWords (withIndices wl ix) ix.length) = .ok ix := by
  have hs : slotWords (withIndices wl ix) ix.length = ix.map (wordAt wl) := by
    apply List.ext_getElem (by simp)
    intro i h1 h2
    have hi : i < ix.length := by simpa using h2
    have he : (ix.map (wordAt wl)).getD i [] = wordAt wl ix[i] := by simp [List.getD, hi]
    simp only [slotWords, List.getElem_map, List.getElem_range]
    rw [withIndices, withWords_slot _ _ _ (by omega) (by rw [he]; exact wordAt_fits hv (hx _ (List.getElem_mem hi))), he]
  rw [hs]
  exact lookupFrom_map _ _ (fun i hi => indexOf_wordAt hv (hx i hi)) 1

/-- DECODE of known words goes on to the split of their indices. -/
theorem exec_decode_zerosAnd (verify : Bool) (c : Nat) (h : c < 16) :
    exec (.decode 12 verify) (withIndices wlA (zerosAnd c)) =
      .next (decodeIndices 12 verify (zerosAnd c) (withIndices wlA (zerosAnd c))) := by
  have hl : lookupAll (withIndices wlA (zerosAnd c)).wl (slotWords (withIndices wlA (zerosAnd c)) 12) = .ok (zerosAnd c) :=
    lookup_withIndices wlA wlA_valid (zerosAnd c) (zerosAnd_small c h) (by simp [zerosAnd])
  rw [exec, execDecode, if_neg (by decide), if_neg (by simp [withIndices, withWords, wlA_valid]), hl]

/-- Without verification it commits. -/
theorem exec_decodeNV_zeros (c : Nat) (h : c < 16) : exec (.decode 12 false) (withIndices wlA (zerosAnd c)) =
    .next (complete (commit zeros 12 4 c (zerosAnd c) (withIndices wlA (zerosAnd c)))) := by
  rw [exec_decode_zerosAnd false c h]
  simp [decodeIndices, split_zerosAnd c h, show csOfWords 12 = 4 from rfl]

/-- V-D3: with VERIFY = 0 and the last index 2, ENT is zero, IDX[11] = 2 and RESULT = 0x0204100C. -/
theorem test_decodeNV_wrong_checksum : ∃ t, exec (.decode 12 false) (withIndices wlA (zerosAnd 2)) = .next t ∧
    t.result = 0x0204100C ∧ t.idx[11] = 2 ∧ t.entW[0] = 0 ∧ t.status = 0x0000000A :=
  ⟨_, exec_decodeNV_zeros 2 (by decide), by decide +kernel, by decide +kernel, by decide +kernel, rfl⟩

/-- V-D1 and V-D2: with VERIFY = 1, the right last index succeeds and every other one fails with ChecksumMismatch. -/
theorem test_decodeV_zeros (c : Nat) (h : c < 16) : ∃ t, exec (.decode 12 true) (withIndices wlA (zerosAnd c)) = .next t ∧
    t.errinfo = if c = cval zeros 4 then 0 else 0x00000004 := by
  refine ⟨_, exec_decode_zerosAnd true c h, ?_⟩
  rw [decodeIndices, split_zerosAnd c h, show csOfWords 12 = 4 from rfl]
  by_cases hc : c = cval zeros 4
  · simp [← hc]
  · simp [hc, errinfoOf, ErrCode.code]

/-! ### The register port (95_test_vectors 2.6) -/

/-- V-B1, V-B2, V-B3, V-B9: bus errors. -/
theorem test_bus_errors (s : State) : (hostRead 0x014 .w4 s).responses = s.responses ++ [.busError] ∧
    (hostRead 0x002 .w4 s).responses = s.responses ++ [.busError] ∧ hostWrite 0x100 .w1 7 s = respond .busError s ∧
    hostRead 0x700 .w4 s = respond .busError s := ⟨rfl, rfl, rfl, rfl⟩

/-- V-B8 and the packing of 10_state R30: "abandon" in slot 23 reads as 0x6162616E 0x646F6E00 and zeros. -/
theorem test_word_packing : (blockOfBytes abandon).toList = [0x6162616E, 0x646F6E00, 0, 0, 0, 0, 0, 0] ∧
    regAt 0x6FC = some (.word 23 7) := by decide +kernel

/-- V-D11: "ABANDON" folds to "abandon". -/
theorem test_fold_capitals : fold "A" [0x41, 0x42, 0x41, 0x4E, 0x44, 0x4F, 0x4E] = abandon := by decide +kernel

/-- The packing line of V-E5: entropy 00 01 .. 0f fills ENT_W[0..3] big-endian. -/
theorem test_hostWrEnt : hostWrEnt [0x00, 0x01, 0x02, 0x03, 0x04, 0x05, 0x06, 0x07, 0x08, 0x09, 0x0A, 0x0B, 0x0C, 0x0D, 0x0E, 0x0F] =
    [.write 0x100 .w4 0x00010203, .write 0x104 .w4 0x04050607, .write 0x108 .w4 0x08090A0B, .write 0x10C .w4 0x0C0D0E0F] := by
  decide +kernel

/-- P1 and P4: slot 11 starts at 0x560, and "about" packs as 0x61626F75 0x74000000. -/
theorem test_hostWrWord : (hostWrWord 11 about).take 2 = [.write 0x560 .w4 0x61626F75, .write 0x564 .w4 0x74000000] := by
  decide +kernel

/-- P1: `CMD ENCODE 16` writes 0x00001001 to 0x000, and POLL reads STATUS at 0x004. -/
theorem test_hostCmd_hostPoll : hostCmd (.encode 16) :: hostPoll 1 =
    [.write 0x000 .w4 0x00001001, .read 0x004 .w4, .engine, .read 0x004 .w4] := by decide +kernel

/-- The window starts at BASE and is 4096 bytes long (20_memory R60). -/
theorem test_busOffset : busOffset (Config.base + 0x560) = some 0x560 ∧ busOffset (Config.base + 4096) = none := by
  simp [busOffset]

/-- P6: an Illegal word, then the bus error, run from reset. -/
theorem test_illegal_from_reset : ∃ t, step (State.reset.withFetchWord 32 0) = .next t ∧ t.errinfo = 0x00000008 :=
  ⟨_, rfl, rfl⟩

/-! ### Witnesses: for each statement with hypotheses, a state and operands that meet them, at the edges of its clauses -/

/-- The reset registers with BUSY = 1, a command word and pending events. -/
def running (wl : Wordlist) (c : Word32) (ev : List Input) : State :=
  { State.reset with wl := wl, cmd := c, status := statusBusy, inputs := ev }

theorem witness_ResetEvent : (running wlA 0x1001 [.reset]).inputs = .reset :: [] ∧
    (running wlA 0x1001 [.reset]).busy = true := ⟨rfl, rfl⟩

theorem witness_DecodeEncode : (Instr.decode 255 true).WellFormed ∧ (Instr.encode 0).WellFormed := by decide

theorem witness_EncodeDecode : decode 0x0000FF13 = .command (.decode 255 true) := by decide

theorem witness_IllegalCommandCompletes : decode State.reset.cmd = .illegal .reservedOp ∧ State.reset.busy = false := by decide

theorem witness_StepRunsCommand : (running wlA 0x1001 []).busy = true ∧ (running wlA 0x1001 []).inputs = [] ∧
    (running wlA 0x1001 [.engine]).inputs = .engine :: [] ∧ (Instr.encode 16).WellFormed ∧
    decode (running wlA 0x1001 []).cmd = .command (.encode 16) := by decide +kernel

theorem witness_EngineStepClearsBusy : (running wlA 0 []).busy = true ∧ State.reset.busy = false := ⟨rfl, rfl⟩

theorem witness_AcceptedCommandCompletes :
    (running wlA 0x1001 [hostRd .status, .write 0x000 .w4 0x13]).busy = true := rfl

/-- Both cases of the conclusion: no reset among the events, and a reset among them. -/
theorem witness_AcceptedCommandCompletes_cases :
    Input.reset ∉ (running wlA 0x1001 [hostRd .status, .engine]).inputs.take 2 ∧
    (running wlA 0x1001 [hostRd .status, .reset]).busy = true ∧
    Input.reset ∈ (running wlA 0x1001 [hostRd .status, .reset]).inputs.take 2 := by decide +kernel

theorem witness_AddressMap : regAt 0x11C = some (.ent 7) ∧ regAt 0x25C = some (.idx 23) ∧
    regAt 0x6FC = some (.word 23 7) ∧ regAt 0x014 = none ∧ regAt 0x102 = none := by decide

theorem witness_UnmappedIsBusError : ∀ o ∈ [(0x014 : BitVec 12), 0x0FF, 0x120, 0x1FF, 0x260, 0x3FF, 0x700, 0xFFF],
    (0x014 ≤ o.toNat ∧ o.toNat ≤ 0x0FF) ∨ (0x120 ≤ o.toNat ∧ o.toNat ≤ 0x1FF) ∨
      (0x260 ≤ o.toNat ∧ o.toNat ≤ 0x3FF) ∨ (0x700 ≤ o.toNat ∧ o.toNat ≤ 0xFFF) := by decide

theorem witness_WidthAndAlignment : Width.w8 ≠ .w4 ∧ (0x103 : BitVec 12).toNat % 4 ≠ 0 := by decide

theorem witness_HostReadValue : regAt (0x25C : BitVec 12).toNat = some (.idx 23) ∧ (running wlA 0 []).busy = true ∧
    regAt (0x008 : BitVec 12).toNat = some .errinfo := by decide

theorem witness_HostWriteEffect : regAt (0x004 : BitVec 12).toNat = some .status ∧
    regAt (0x100 : BitVec 12).toNat = some (.ent 0) ∧ regAt (0x6FC : BitVec 12).toNat = some (.word 23 7) ∧
    (running wlA 0 []).busy = true ∧ State.reset.busy = false := by decide

theorem witness_CommandAcceptance : (running wlA 0 []).busy = true ∧ State.reset.busy = false := ⟨rfl, rfl⟩

theorem witness_HostAccessFrame (s : State) : hostRead 0x100 .w4 s = hostRead 0x100 .w4 s ∧
    hostWrite 0x100 .w4 1 (running wlA 0 []) = respond .writeOk (running wlA 0 []) := ⟨rfl, rfl⟩

theorem witness_WritesAreIdempotent : Reg.ent 7 ≠ .cmd ∧ Reg.word 0 0 ≠ .cmd := by decide

theorem witness_LengthsAgree : supportedWords 24 = true ∧ (List.replicate 32 (0 : Byte)).length = (11 * 24 - csOfWords 24) / 8 := by
  decide

theorem witness_EntropyBitOrder : 127 < 8 * zeros.length := by decide

/-- The edges of the slot's end: the first byte, a byte within, and none; and the bit the formula names for the first and
the last byte: 20_memory R67's 0x00010203. -/
theorem witness_BytePacking : (blockByte (.replicate 8 0) 0 = 0) ∧
    ((∀ m < 5, blockByte (blockOfBytes about) m ≠ 0) ∧ blockByte (blockOfBytes about) 5 = 0 ∧ about.length ≤ 32 ∧
      (0x00 : Byte) ∉ about) ∧
    (∀ m < 32, blockByte (.replicate 8 0x01010101) m ≠ 0) ∧ 24 - 8 * (0 % 4) = 24 ∧ 24 - 8 * (31 % 4) = 0 ∧
    blockByte (.replicate 8 0x00010203) 3 = 3 ∧ blockByte (.replicate 8 0x00010203) 28 = 0 := by decide +kernel

theorem witness_BitsToBytesInverse : (List.replicate 16 true).length = 8 * 2 ∧ 1 < 2 := by decide

/-- Every supported length is met, at its last chunk and its last entropy bit. -/
theorem witness_SupportedEntropy : ∀ len ∈ [16, 20, 24, 28, 32], supportedBytes (List.replicate len (0xFF : Byte)).length = true ∧
    wordsOfBytes len - 1 < wordsOfBytes len ∧ 8 * len - 1 < 8 * len := by decide

theorem witness_SplitIntegerForm : (List.replicate 24 2047).length = 24 ∧ supportedWords 24 = true ∧
    (∀ i ∈ List.replicate 24 2047, i < 2048) := by
  refine ⟨rfl, by decide, fun i hi => ?_⟩
  have := List.eq_of_mem_replicate hi
  omega

/-- The edges of the two clauses: the last checksum bit and the last entropy bit of the last chunk, and the first bit. -/
theorem witness_ChecksumSensitivity : supportedBytes zeros.length = true ∧ 12 = wordsOfBytes zeros.length ∧
    4 = csOfBytes zeros.length ∧ (11 = 12 - 1 ∧ 3 < 4) ∧ ¬(11 = 12 - 1 ∧ 4 < 4) ∧ ¬(0 = 12 - 1 ∧ 10 < 4) := by decide

theorem witness_IndexLookup : wlValid wlA = true ∧ indexOf wlA about = some 3 := by
  refine ⟨wlA_valid, ?_⟩
  have h : wordAt wlA 3 = about := by decide +kernel
  rw [← h]
  exact indexOf_wordAt wlA_valid (by decide)

theorem witness_CaseFolding : (∀ b ∈ abandon, b.toNat < 0x80) ∧ wlValid wlA = true ∧ wordAt wlA 0 ∈ wlA.words := by
  refine ⟨by decide, wlA_valid, ?_⟩
  rw [show wordAt wlA 0 = testWord 0x61 0 by decide +kernel, wlA, testList_words]
  exact List.mem_map.2 ⟨0, by simp, rfl⟩

/-- A mixed word, "A" with a two-byte character and "B"; and a word that differs from word 0 in its case only. -/
theorem witness_CaseFolding_mixed : (∀ p ∈ [(([0x41], [0xC3, 0x84]) : Bytes × Bytes)],
      (∀ b ∈ p.1, b.toNat < 0x80) ∧ ∀ b ∈ p.2, 0x80 ≤ b.toNat) ∧ (∀ b ∈ ([0x42] : Bytes), b.toNat < 0x80) ∧
    ([0x41, 0x42, 0x41, 0x4E, 0x44, 0x4F, 0x4E] : Bytes).map asciiLower = (wordAt wlA 0).map asciiLower := by decide +kernel

theorem witness_EmptyWordUnknown : wlValid wlA = true := wlA_valid

theorem witness_WordlistConstant : ∃ t, step (running wlA 0x00000001 []) = .next t := ⟨_, rfl⟩

theorem witness_UnsupportedEntropyLength : ∀ len ∈ [0, 15, 17, 31, 33, 255], len < 16 ∨ len % 4 ≠ 0 ∨ 33 ≤ len := by decide

theorem witness_UnsupportedWordCount : ∀ n ∈ [0, 11, 13, 23, 25, 255], n < 12 ∨ n % 3 ≠ 0 ∨ 25 ≤ n := by decide

theorem witness_WordlistUnavailable : wlValid (start wlNone).wl = false ∧ supportedBytes 32 = true ∧ supportedWords 24 = true := by
  decide

theorem witness_RandomSourceFailure : supportedWords 24 = true ∧ wlValid { start wlA with rngScript := [none] }.wl = true ∧
    drawRandom (bytesOfWords 24) { start wlA with rngScript := [none] } = (none, start wlA) :=
  ⟨by decide, wlA_valid, rfl⟩

/-- V-S3: slot 4 is empty and the others before it hold "abandon"; and slot 0 of an empty bank, position 1. -/
theorem witness_UnknownWordPosition : supportedWords 12 = true ∧ wlValid (withIndices wlA (List.replicate 4 0)).wl = true ∧
    indexOf wlA (wordAtSlot (withIndices wlA (List.replicate 4 0)) 4) = none ∧
    (∀ q < 4, indexOf (withIndices wlA (List.replicate 4 0)).wl (wordAtSlot (withIndices wlA (List.replicate 4 0)) q) ≠ none) ∧
    indexOf wlA (wordAtSlot (start wlA) 0) = none := by
  have hn : indexOf wlA [] = none := by
    rw [indexOf, List.findIdx?_eq_none_iff]
    intro w hw
    have hf : fold wlA.tag [] = [] := fold_lower_word _ _ (by simp)
    have hk := ((wlValid_iff wlA).1 wlA_valid).2.2.2.1 w (List.mem_of_mem_take hw)
    simp [hf, hk.1]
  refine ⟨by decide, wlA_valid, ?_, fun q hq => ?_, ?_⟩
  · rw [withIndices, withWords_slot _ _ _ (by decide) (by simp)]
    exact hn
  · rw [withIndices_lookup wlA wlA_valid _ (by decide) q (by simpa using hq) (by omega)]
    simp
  · have : wordAtSlot (start wlA) 0 = [] := by decide +kernel
    rw [this]
    exact hn

/-- A last index whose checksum bits are wrong. -/
theorem witness_ChecksumMismatch : ∃ ix : List Nat, ix.length = 12 ∧ supportedWords 12 = true ∧
    wlValid (withIndices wlA ix).wl = true ∧
    (∀ i < 12, indexOf (withIndices wlA ix).wl (wordAtSlot (withIndices wlA ix) i) = some (ix.getD i 0)) ∧
    ix.getD (12 - 1) 0 % 2 ^ csOfWords 12 ≠ (Config.sha256 (split ix).ent)[0].toNat >>> (8 - csOfWords 12) := by
  obtain ⟨c, hc, hne⟩ : ∃ c < 16, c ≠ cval zeros 4 := by
    by_cases h : cval zeros 4 = 0
    · exact ⟨1, by decide, by omega⟩
    · exact ⟨0, by decide, by omega⟩
  refine ⟨zerosAnd c, by simp [zerosAnd], by decide, wlA_valid, fun i hi => ?_, ?_⟩
  · exact withIndices_lookup wlA wlA_valid _ (zerosAnd_small c hc) i (by simpa [zerosAnd] using hi) (by omega)
  · rw [split_zerosAnd c hc]
    have h1 : (zerosAnd c).getD (12 - 1) 0 = c := by simp [zerosAnd]
    rw [h1, show 2 ^ csOfWords 12 = 16 from rfl, Nat.mod_eq_of_lt hc]
    exact hne

theorem witness_IndexNeverOutOfRange : ∃ t, exec (.encode 33) State.reset = .next t := ⟨_, rfl⟩

theorem witness_AllOrNothing : (∃ t, engineStep (running wlA 0 []) = .next t ∧ t.status = 0b0100) ∧
    ∃ t, engineStep { withIndices wlA (zerosAnd 2) with cmd := 0x0C03 } = .next t ∧ t.status = 0b1010 := by
  refine ⟨⟨_, rfl, rfl⟩, ?_⟩
  have h : engineStep { withIndices wlA (zerosAnd 2) with cmd := 0x0C03 } =
      exec (.decode 12 false) { withIndices wlA (zerosAnd 2) with cmd := 0x0C03 } := rfl
  rw [h, exec, execDecode, if_neg (by decide), if_neg (by simp [withIndices, withWords, wlA_valid])]
  have hl : lookupAll { withIndices wlA (zerosAnd 2) with cmd := 0x0C03 }.wl
      (slotWords { withIndices wlA (zerosAnd 2) with cmd := 0x0C03 } 12) = .ok (zerosAnd 2) :=
    lookup_withIndices wlA wlA_valid (zerosAnd 2) (zerosAnd_small 2 (by decide)) (by simp [zerosAnd])
  rw [hl]
  exact ⟨_, rfl, rfl⟩

theorem witness_OnlyRandomDraws : (∃ t, exec (.encode 16) (start wlNone) = .next t) ∧
    (∃ t, exec (.encodeRandom 13) (start wlA) = .next t) ∧ supportedWords 13 = false := ⟨⟨_, rfl⟩, ⟨_, rfl⟩, by decide⟩

/-- ENCODE of the sixteen zero bytes of the reset buffer succeeds. -/
theorem exec_encode_start : exec (.encode 16) (start wlA) = .next (complete (commit (entBytes (start wlA) 16) 12 4
    (cval (entBytes (start wlA) 16) 4) (encodeCore (entBytes (start wlA) 16)).chunks (start wlA))) := by
  rw [exec, execEncode, if_neg (by decide), if_neg (by simp [start, wlA_valid]), encodeEntropy_eq,
    entBytes_length _ _ (by decide)]
  rfl

theorem witness_EncodeResult : supportedBytes 16 = true ∧ supportedBytes 32 = true ∧ wlValid (start wlA).wl = true :=
  ⟨by decide, by decide, wlA_valid⟩

theorem witness_EncodeKeepsEntropy : ∃ t, exec (.encode 16) (start wlA) = .next t ∧ t.status = 0b1010 ∧ 16 ≤ 31 ∧ 31 < 32 :=
  ⟨_, exec_encode_start, rfl, by decide, by decide⟩

/-- V-E25: the bytes from 16 on are 0xFF. -/
theorem witness_EncodeIgnoresTail :
    (blockBytes (blockOfBytes (zeros ++ List.replicate 16 0xFF))).take 16 = (blockBytes (start wlA).entW).take 16 ∧
      blockOfBytes (zeros ++ List.replicate 16 0xFF) ≠ (start wlA).entW := by decide +kernel

theorem witness_EncodeDeterministic : wlValid (start wlA).wl = true ∧ supportedBytes 16 = true ∧
    (running wlA 0x1001 []).wl = (start wlA).wl ∧ entBytes (running wlA 0x1001 []) 16 = entBytes (start wlA) 16 :=
  ⟨wlA_valid, by decide, rfl, rfl⟩

theorem witness_EncodeRandomResult : supportedWords 12 = true ∧
    wlValid { start wlA with rngScript := [some (.replicate 32 0xA5)] }.wl = true ∧
    drawRandom (bytesOfWords 12) { start wlA with rngScript := [some (.replicate 32 0xA5)] } =
      (some (List.replicate 16 0xA5), { start wlA with rngScript := [] }) := ⟨by decide, wlA_valid, draw_A5 _⟩

theorem witness_DrawIsFree : (List.replicate 32 (0x7F : Byte)).length = 32 ∧ 32 ≤ 32 := by decide

theorem witness_RandomIgnoresEntropy : (∃ t,
    exec (.encodeRandom 12) { start wlA with rngScript := [some (.replicate 32 0xA5)] } = .next t ∧ t.status = 0b1010) ∧
    ∃ t, exec (.encodeRandom 13) (start wlA) = .next t ∧ t.status = 0b0100 :=
  ⟨⟨_, exec_random_A5, by rw [encodeEntropy_eq]; rfl⟩, ⟨_, rfl, rfl⟩⟩

theorem witness_LanguageIndependence : supportedBytes 32 = true ∧ wlValid (start wlA).wl = true ∧ wlValid wlB = true ∧
    wordAt wlA 5 ≠ wordAt wlB 5 := ⟨by decide, wlA_valid, wlB_valid, by decide +kernel⟩

/-- The words of a right encoding: eleven times index 0, then the checksum of sixteen zero bytes. -/
theorem witness_DecodeResult : supportedWords 12 = true ∧ wlValid (withIndices wlA (zerosAnd (cval zeros 4))).wl = true ∧
    (zerosAnd (cval zeros 4)).length = 12 ∧
    (∀ i < 12, indexOf (withIndices wlA (zerosAnd (cval zeros 4))).wl
      (wordAtSlot (withIndices wlA (zerosAnd (cval zeros 4))) i) = some ((zerosAnd (cval zeros 4)).getD i 0)) ∧
    (split (zerosAnd (cval zeros 4))).c =
      (Config.sha256 (split (zerosAnd (cval zeros 4))).ent)[0].toNat >>> (8 - csOfWords 12) := by
  refine ⟨by decide, wlA_valid, by simp [zerosAnd], fun i hi => ?_, ?_⟩
  · exact withIndices_lookup wlA wlA_valid _ (zerosAnd_small _ (cval4_lt _)) i (by simpa [zerosAnd] using hi) (by omega)
  · rw [split_zerosAnd _ (cval4_lt _)]
    rfl

theorem witness_DecodeUnverified : (zerosAnd 2).length = 12 ∧ (∀ i < 12, indexOf (withIndices wlA (zerosAnd 2)).wl
    (wordAtSlot (withIndices wlA (zerosAnd 2)) i) = some ((zerosAnd 2).getD i 0)) := by
  refine ⟨by simp [zerosAnd], fun i hi => ?_⟩
  exact withIndices_lookup wlA wlA_valid _ (zerosAnd_small 2 (by decide)) i (by simpa [zerosAnd] using hi) (by omega)

/-- V-D19: garbage in slot 23, the slots before it the same. -/
theorem witness_DecodeIgnoresUnusedSlots : (∀ (i : Nat) (h : i < 24), i < 12 →
    ((withIndices wlA (zerosAnd 2)).wordW.set 23 (blockOfBytes about))[i] = (withIndices wlA (zerosAnd 2)).wordW[i]) ∧
    (∃ t, exec (.decode 12 false) (withIndices wlA (zerosAnd 2)) = .next t ∧ t.status = 0b1010) ∧
    ∃ t, exec (.decode 13 false) (withIndices wlA (zerosAnd 2)) = .next t ∧ t.status = 0b0100 := by
  refine ⟨fun i h hi => ?_, ⟨_, exec_decodeNV_zeros 2 (by decide), rfl⟩, ⟨_, rfl, rfl⟩⟩
  rw [Vector.getElem_set_ne _ _ (by omega)]

theorem witness_DecodeAgreesWithEncode :
    (∃ t, exec (.decode 12 true) (withIndices wlA (zerosAnd (cval zeros 4))) = .next t ∧ t.status = 0b1010) ∧
    ∃ t, exec (.encode 16) (start wlA) = .next t ∧ t.status = 0b1010 := by
  refine ⟨⟨_, exec_decode_zerosAnd true _ (cval4_lt _), ?_⟩, ⟨_, exec_encode_start, rfl⟩⟩
  rw [decodeIndices, split_zerosAnd _ (cval4_lt _), show csOfWords 12 = 4 from rfl]
  simp [statusSuccess]

theorem witness_CommandRegisterRule :
    (∃ t, step { State.reset with inputs := [.write 0x000 .w4 0x1001] } = .next t ∧ t.cmd = 0x1001) ∧
    ∃ t, step (running wlA 0x1001 [.reset]) = .next t ∧ t.cmd = 0 := ⟨⟨_, rfl, rfl⟩, ⟨_, rfl, rfl⟩⟩

theorem witness_ResultWrittenOnSuccessOnly : ∃ t, step (running wlA 0x00000001 []) = .next t ∧ t.result = 0 := ⟨_, rfl, rfl⟩

theorem witness_ValidStays : (∃ t, step { State.reset with status := 0b1010, inputs := [hostRd .lang] } = .next t) ∧
    ∃ t, step { State.reset with status := 0b1010, inputs := [.write 0x000 .w4 7] } = .next t ∧ t.cmd = 7 :=
  ⟨⟨_, rfl⟩, ⟨_, rfl, rfl⟩⟩

/-- A busy state and a state after a success that meet the invariant, and a step from each. -/
theorem witness_StepKeepsInvariant : (Inv (running wlA 0x1001 [.engine]) ∧ ∃ t, step (running wlA 0 []) = .next t) ∧
    ∃ s, Inv s ∧ s.status = statusSuccess ∧ ∃ t, step s = .next t := by
  refine ⟨⟨⟨.inr (.inl rfl), fun h => absurd h (by decide), fun _ => rfl, fun i h => ?_, .inl rfl,
    fun h => absurd h (by decide)⟩, ⟨_, rfl⟩⟩, ?_⟩
  · simp [running, State.reset]
  · refine ⟨{ complete (commit zeros 12 4 2 (zerosAnd 2) (withIndices wlA (zerosAnd 2))) with cmd := 0x0C03 },
      ⟨.inr (.inr (.inl rfl)), fun h => absurd h (by decide), fun _ => rfl, ?_, .inr ⟨12, 2, by decide, by decide, rfl⟩,
        fun _ => ⟨⟨.decode 12 false, by decide⟩, wlA_valid, rfl, 12, 2, ⟨by decide, by decide, rfl⟩, ?_, ?_⟩⟩, rfl, ⟨_, rfl⟩⟩
    · have : ∀ i : Fin 24, (commit zeros 12 4 2 (zerosAnd 2) (withIndices wlA (zerosAnd 2))).idx[i].toNat < 2048 := by
        decide +kernel
      exact fun i h => this ⟨i, h⟩
    · intro i h hn
      show (commit zeros 12 4 2 (zerosAnd 2) (withIndices wlA (zerosAnd 2))).idx[i] = 0
      simp only [commit_idx, getElem_tabulate]
      rw [if_neg (by omega)]
    · decide +kernel

end Sys2Proof.Tests
end

section
/-!
SUPPORT. The laws of a value's low bits and of the last index (40_datapath R127 to R129).
-/

namespace Sys2Proof.Machine

/-- The trailing bits of a bit string are the low bits of its value. -/
theorem val_drop (s : Bits) (k : Nat) : val (s.drop k) = val s % 2 ^ (s.length - k) := by
  have hd : val (s.drop k) < 2 ^ (s.length - k) := by simpa using val_lt (s.drop k)
  have hs : val s = val (s.take k) * 2 ^ (s.length - k) + val (s.drop k) := by
    rw [← List.length_drop, ← val_append, List.take_append_drop]
  rw [hs, Nat.mul_add_mod', Nat.mod_eq_of_lt hd]

/-- The low bits of the string of the indices are those of the last index. -/
theorem val_indexBits_mod {cs : Nat} (ix : List Nat) (hcs : cs ≤ 11) :
    val (indexBits ix) % 2 ^ cs = ix.getD (ix.length - 1) 0 % 2 ^ cs := by
  rcases List.eq_nil_or_concat' ix with rfl | ⟨init, last, rfl⟩
  · rfl
  · have hv : val (indexBits (init ++ [last])) = val (indexBits init) * 2 ^ 11 + last % 2 ^ 11 := by
      rw [indexBits, List.flatMap_append, List.flatMap_singleton, val_append, val_bitsN, bitsN_length]
      rfl
    have hdvd : 2 ^ cs ∣ 2 ^ 11 := Nat.pow_dvd_pow 2 hcs
    rw [hv, Nat.add_mod, Nat.mod_mod_of_dvd _ hdvd, Nat.mod_eq_zero_of_dvd (hdvd.mul_left _)]
    simp

/-- The low bits of the spliced string are the checksum value (R125, R127). -/
theorem val_splice_mod {ent : Bytes} (hcs : csOfBytes ent.length ≤ 8) :
    val (splice ent) % 2 ^ csOfBytes ent.length = cval ent (csOfBytes ent.length) := by
  have hc : val (checksum ent (csOfBytes ent.length)) = cval ent (csOfBytes ent.length) :=
    val_take_bitsN (hashByte ent).isLt
  rw [splice, val_append, checksum_length _ hcs, hc, Nat.mul_add_mod', Nat.mod_eq_of_lt (cval_lt ent _ hcs)]

/-- The received checksum is the low CS bits of the last index (R129). -/
theorem split_c {ix : List Nat} (hn : supportedWords ix.length = true) :
    (split ix).c = ix.getD (ix.length - 1) 0 % 2 ^ csOfWords ix.length := by
  obtain ⟨-, -, -, hpos, -, hcs, -⟩ := supportedWords_row hn
  rw [split, val_drop, indexBits_length, Nat.sub_sub_self (by omega), val_indexBits_mod ix (by omega)]

/-- The reconstructed entropy has the length of its row (R128, R130). -/
theorem split_ent_length (ix : List Nat) : (split ix).ent.length = bytesOfWords ix.length := by
  simp [split, bitsToBytes, bytesOfWords]

end Sys2Proof.Machine
end

section
/-!
SUPPORT. What a step can do, said once: the engine's step is an error completion or a success on a row's values, and a
step of the machine is an acceptance, a reset, an engine step, or leaves the command's registers alone.
-/

namespace Sys2Proof.Machine

/-- The values a success commits (40_datapath R120, R129): a supported count `n`, the entropy of its row, `n` 11-bit
indices, and as checksum value the low CS bits of the last index. -/
structure IsEncoding (ent : Bytes) (n c : Nat) (ix : List Nat) : Prop where
  supported : supportedWords n = true
  ent_length : ent.length = bytesOfWords n
  length : ix.length = n
  small : ∀ i ∈ ix, i < 2048
  checksum : ix.getD (n - 1) 0 % 2 ^ csOfWords n = c

/-- What `encodeCore` gives on a supported length is such a row (R125, R127). -/
theorem isEncoding_encodeCore {ent : Bytes} (h : supportedBytes ent.length = true) :
    IsEncoding ent (wordsOfBytes ent.length) (cval ent (csOfBytes ent.length)) (encodeCore ent).chunks := by
  obtain ⟨hn, hcs, hl, -, h8⟩ := supportedBytes_row h
  refine ⟨hn, hl.symm, encodeCore_chunks_length ent, encodeCore_chunk_lt ent, ?_⟩
  rw [← val_splice_mod h8, ← indexBits_chunks h, val_indexBits_mod _ (by omega), encodeCore_chunks_length, hcs]

/-- What `split` gives on a supported number of 11-bit indices is such a row (R128, R129). -/
theorem isEncoding_split {ix : List Nat} (hn : supportedWords ix.length = true) (hx : ∀ i ∈ ix, i < 2048) :
    IsEncoding (split ix).ent ix.length (split ix).c ix :=
  ⟨hn, split_ent_length ix, rfl, hx, (split_c hn).symm⟩

theorem IsEncoding.getD_lt {ent : Bytes} {n c : Nat} {ix : List Nat} (h : IsEncoding ent n c ix) (i : Nat) :
    ix.getD i 0 < 2048 := by
  rcases Nat.lt_or_ge i ix.length with hi | hi
  · rw [List.getD_eq_getElem _ _ hi]
    exact h.small _ (List.getElem_mem hi)
  · rw [List.getD_eq_default _ _ hi]
    decide

/-- The committed RESULT is one of the five rows (10_state R26). -/
theorem IsEncoding.isResult {ent : Bytes} {n c : Nat} {ix : List Nat} (h : IsEncoding ent n c ix) :
    IsResult (resultOf n ent.length (csOfWords n) c) n c :=
  ⟨h.supported, h.checksum ▸ Nat.mod_lt _ (by positivity), by rw [h.ent_length]⟩

/-- How the engine's step ends (60_exceptions R231, R232): with an error that writes STATUS and a legal ERRINFO, or with
the commit of a row under a valid wordlist. The random source's view may have moved in both. -/
inductive EngineResult (s : State) : State → Prop where
  | error (w : Word32) (script : List (Option (Vector Byte 32))) (k : Nat) (hw : IsErrinfo w) :
      EngineResult s { s with status := statusError, errinfo := w, rngScript := script, draws := k }
  | success (ent : Bytes) (n c : Nat) (ix : List Nat) (script : List (Option (Vector Byte 32))) (k : Nat)
      (hcmd : ∃ i, decode s.cmd = .command i) (hv : wlValid s.wl = true) (hrow : IsEncoding ent n c ix) :
      EngineResult s (complete (commit ent n (csOfWords n) c ix { s with rngScript := script, draws := k }))

/-- An error other than UnknownWord and WordIndexOutOfRange has position 0 (60_exceptions R221 to R229). -/
theorem isErrinfo_of_ne {e : ErrCode} (h3 : e ≠ .unknownWord) (h5 : e ≠ .wordIndexOutOfRange) :
    IsErrinfo (errinfoOf e 0) :=
  ⟨e, 0, rfl, h5, fun h => absurd h h3, fun _ => rfl⟩

theorem isErrinfo_unknownWord {p : Nat} (h1 : 1 ≤ p) (h24 : p ≤ 24) : IsErrinfo (errinfoOf .unknownWord p) :=
  ⟨.unknownWord, p, rfl, by decide, fun _ => ⟨h1, h24⟩, fun h => absurd rfl h⟩

/-- An error raised with the random source untouched is an engine result. -/
theorem EngineResult.raise {s : State} {e : ErrCode} {pos : Nat} (h : IsErrinfo (errinfoOf e pos)) :
    EngineResult s (raiseErr e pos s) :=
  .error _ s.rngScript s.draws h

/-- Encoding a string of a supported length is a success. -/
theorem encodeEntropy_result {ent : Bytes} {s : State} (script : List (Option (Vector Byte 32))) (k : Nat)
    (hcmd : ∃ i, decode s.cmd = .command i) (hv : wlValid s.wl = true) (h : supportedBytes ent.length = true) :
    EngineResult s (encodeEntropy ent { s with rngScript := script, draws := k }) := by
  obtain ⟨-, hcs, -, -, -⟩ := supportedBytes_row h
  have hrow := isEncoding_encodeCore h
  rw [hcs] at hrow
  rw [encodeEntropy_eq, hcs]
  exact .success _ _ _ _ script k hcmd hv hrow

theorem execEncode_result {len : Nat} {s t : State} (hcmd : ∃ i, decode s.cmd = .command i)
    (h : execEncode len s = .next t) : EngineResult s t := by
  rcases execEncode_cases len s with ⟨-, he⟩ | ⟨-, -, he⟩ | ⟨hlen, hv, he⟩ <;> obtain rfl := Host.Outcome.next.inj (he ▸ h)
  · exact .raise (isErrinfo_of_ne (by decide) (by decide))
  · exact .raise (isErrinfo_of_ne (by decide) (by decide))
  · obtain ⟨-, -, -, h32, -⟩ := supportedBytes_row hlen
    have hl := entBytes_length s len h32
    exact encodeEntropy_result s.rngScript s.draws hcmd hv (hl.symm ▸ hlen)

/-- After a draw, only the random source's view has moved. -/
theorem drawRandom_inversion {len : Nat} {s s' : State} {r : Option Bytes} (h : drawRandom len s = (r, s')) :
    ∃ script k, s' = { s with rngScript := script, draws := k } := by
  obtain ⟨a, script, k, he⟩ := drawRandom_eq len s
  exact ⟨script, k, (congrArg Prod.snd (he.symm.trans h)).symm⟩

theorem execEncodeRandom_result {wc : Nat} {s t : State} (hcmd : ∃ i, decode s.cmd = .command i)
    (h : execEncodeRandom wc s = .next t) : EngineResult s t := by
  rcases execEncodeRandom_cases wc s with
    ⟨-, he⟩ | ⟨-, -, he⟩ | ⟨-, -, s', hd, he⟩ | ⟨hn, hv, r, s', hd, he⟩ <;> obtain rfl := Host.Outcome.next.inj (he ▸ h)
  · exact .raise (isErrinfo_of_ne (by decide) (by decide))
  · exact .raise (isErrinfo_of_ne (by decide) (by decide))
  · obtain ⟨script, k, rfl⟩ := drawRandom_inversion hd
    exact .error _ script k (isErrinfo_of_ne (by decide) (by decide))
  · obtain ⟨script, k, rfl⟩ := drawRandom_inversion hd
    obtain ⟨hlen, -, -, -, -, -, h32⟩ := supportedWords_row hn
    exact encodeEntropy_result script k hcmd hv (drawRandom_length h32 hd ▸ hlen)

/-- An UnknownWord position counts from 1 and stays within the words looked up (R139). -/
theorem lookupAll_unknownWord {wl : Wordlist} {ws : List Bytes} {p : Nat} (h : lookupAll wl ws = .unknownWord p) :
    1 ≤ p ∧ p ≤ ws.length := by
  rcases lookupFrom_cases wl 1 ws with ⟨ix, he, -⟩ | ⟨q, he, hq, -, -⟩ <;> cases (he.symm.trans h)
  omega

theorem execDecode_result {n : Nat} {verify : Bool} {s t : State} (hcmd : ∃ i, decode s.cmd = .command i)
    (h : execDecode n verify s = .next t) : EngineResult s t := by
  rcases execDecode_cases n verify s with
    ⟨-, he⟩ | ⟨-, -, he⟩ | ⟨hn, -, p, hl, he⟩ | ⟨hn, hv, ix, hl, he⟩ <;> obtain rfl := Host.Outcome.next.inj (he ▸ h)
  · exact .raise (isErrinfo_of_ne (by decide) (by decide))
  · exact .raise (isErrinfo_of_ne (by decide) (by decide))
  · obtain ⟨h1, hp⟩ := lookupAll_unknownWord hl
    obtain ⟨-, -, -, -, h24, -, -⟩ := supportedWords_row hn
    rw [slotWords_length] at hp
    exact .raise (isErrinfo_unknownWord h1 (hp.trans h24))
  · obtain ⟨hlen, hx⟩ := lookupAll_ok hl
    rw [slotWords_length] at hlen
    subst hlen
    rcases decodeIndices_cases ix.length verify ix s with ⟨-, -, hd⟩ | ⟨-, hd⟩ <;> rw [hd]
    · exact .raise (isErrinfo_of_ne (by decide) (by decide))
    · exact .success _ _ _ ix s.rngScript s.draws hcmd hv (isEncoding_split hn hx)

/-- Every engine step ends in one of the two ways, whatever word stands in CMD. -/
theorem engineStep_result {s t : State} (h : engineStep s = .next t) : EngineResult s t := by
  rcases engineStep_cases s with ⟨_, -, he⟩ | ⟨i, hi, he⟩ <;> rw [he] at h
  · obtain rfl := Host.Outcome.next.inj h
    exact .raise (isErrinfo_of_ne (by decide) (by decide))
  · cases i with
    | encode len => exact execEncode_result ⟨_, hi⟩ h
    | encodeRandom wc => exact execEncodeRandom_result ⟨_, hi⟩ h
    | decode n verify => exact execDecode_result ⟨_, hi⟩ h

/-- An access reaches CMD at offset 0 with 4 bytes only (20_memory R62, R65). -/
theorem target_eq_cmd {off : BitVec 12} {width : Width} (h : target off width = some .cmd) : off = 0 ∧ width = .w4 := by
  cases width with
  | w1 | w2 | w8 => cases h
  | w4 =>
    have h0 : off.toNat = 0 := by
      simp only [target, regAt] at h
      split_ifs at h <;> simp_all
    exact ⟨BitVec.eq_of_toNat_eq h0, rfl⟩

/-- What a host write can do besides recording its answer: an acceptance, by an aligned 4-byte write to CMD while
BUSY = 0, or a change of the buffers alone. -/
theorem hostWrite_inversion (off : BitVec 12) (width : Width) (v : Word32) (s : State) : ∃ a,
    (off = 0 ∧ width = .w4 ∧ s.busy = false ∧ hostWrite off width v s =
      { s with cmd := v, status := statusBusy, errinfo := 0, responses := s.responses ++ [a] }) ∨
    ∃ e w, (s.busy = true → e = s.entW ∧ w = s.wordW) ∧
      hostWrite off width v s = { s with entW := e, wordW := w, responses := s.responses ++ [a] } := by
  rcases ht : target off width with _ | r
  · exact ⟨.busError, .inr ⟨s.entW, s.wordW, fun _ => ⟨rfl, rfl⟩, by simp [hostWrite, ht, respond]⟩⟩
  · have hw : hostWrite off width v s = respond .writeOk (writeReg r v s) := by simp [hostWrite, ht]
    refine ⟨.writeOk, ?_⟩
    rw [hw]
    cases r with
    | cmd =>
      obtain ⟨h0, h4⟩ := target_eq_cmd ht
      rcases acceptCommand_cases v s with ⟨-, ha⟩ | ⟨hb, ha⟩
      · exact .inr ⟨s.entW, s.wordW, fun _ => ⟨rfl, rfl⟩, by rw [writeReg, ha, respond]⟩
      · exact .inl ⟨h0, h4, hb, by rw [writeReg, ha, respond]⟩
    | ent j =>
      cases hb : s.busy
      · exact .inr ⟨s.entW.set j v, s.wordW, nofun, by simp [writeReg, hb, respond]⟩
      · exact .inr ⟨s.entW, s.wordW, fun _ => ⟨rfl, rfl⟩, by simp [writeReg, hb, respond]⟩
    | word i j =>
      cases hb : s.busy
      · exact .inr ⟨s.entW, s.wordW.set i ((s.wordW.get i).set j v), nofun, by simp [writeReg, hb, respond]⟩
      · exact .inr ⟨s.entW, s.wordW, fun _ => ⟨rfl, rfl⟩, by simp [writeReg, hb, respond]⟩
    | status | errinfo | result | lang | idx => exact .inr ⟨s.entW, s.wordW, fun _ => ⟨rfl, rfl⟩, rfl⟩

/-- What one step of the machine can do: nothing beyond the buffers and the model's own lists, which only an idle block
lets the host write; an acceptance; a reset; or an engine step. -/
inductive StepResult (s : State) : State → Prop where
  | quiet (e : Block) (w : Vector Block 24) (k : Nat) (resp : List Response)
      (hbuf : s.busy = true → e = s.entW ∧ w = s.wordW) :
      StepResult s { s with entW := e, wordW := w, draws := k, inputs := s.inputs.tail, responses := resp }
  | accept (v : Word32) (resp : List Response) (hin : s.inputs = .write 0x000 .w4 v :: s.inputs.tail)
      (hidle : s.busy = false) :
      StepResult s { s with
        cmd := v, status := statusBusy, errinfo := 0, inputs := s.inputs.tail, responses := resp }
  | reset (hin : s.inputs = .reset :: s.inputs.tail) :
      StepResult s (resetRegisters { s with inputs := s.inputs.tail })
  | engine (t : State) (hbusy : s.busy = true) (ht : EngineResult { s with inputs := s.inputs.tail } t) :
      StepResult s t

theorem engineTurn_result {s t : State} (h : engineTurn { s with inputs := s.inputs.tail } = .next t) :
    StepResult s t := by
  rcases engineTurn_cases { s with inputs := s.inputs.tail } with ⟨hb, he⟩ | ⟨-, he⟩ <;> rw [he] at h
  · exact .engine t hb (engineStep_result h)
  · obtain rfl := Host.Outcome.next.inj h
    exact .quiet s.entW s.wordW s.draws s.responses fun _ => ⟨rfl, rfl⟩

theorem takeInput_read (off : BitVec 12) (width : Width) (s : State) :
    takeInput (.read off width) s = .next (hostRead off width s) := rfl

theorem takeInput_write (off : BitVec 12) (width : Width) (v : Word32) (s : State) :
    takeInput (.write off width v) s = .next (hostWrite off width v s) := rfl

/-- Every step of the machine is one of the four. -/
theorem step_result {s t : State} (h : step s = .next t) : StepResult s t := by
  rcases step_cases s with ⟨hin, hs⟩ | ⟨e, rest, hin, hs⟩ <;> rw [hs] at h
  · exact engineTurn_result (by rw [← h, hin, List.tail_nil, ← hin])
  · obtain rfl : s.inputs.tail = rest := by rw [hin, List.tail_cons]
    cases e with
    | read off width =>
      obtain ⟨a, k, hr⟩ := hostRead_eq off width { s with inputs := s.inputs.tail }
      rw [takeInput_read, hr] at h
      obtain rfl := Host.Outcome.next.inj h
      exact .quiet s.entW s.wordW k _ fun _ => ⟨rfl, rfl⟩
    | write off width v =>
      obtain ⟨a, ⟨rfl, rfl, hb, hw⟩ | ⟨e, w, hbuf, hw⟩⟩ := hostWrite_inversion off width v { s with inputs := s.inputs.tail } <;>
        rw [takeInput_write, hw] at h <;> obtain rfl := Host.Outcome.next.inj h
      · exact .accept v _ hin hb
      · exact .quiet e w s.draws _ hbuf
    | reset =>
      obtain rfl := Host.Outcome.next.inj h
      exact .reset hin
    | engine => exact engineTurn_result h

end Sys2Proof.Machine
end

section
/-!
The invariant of the registers (10_state R24 to R29, R35): it holds after reset and every step keeps it.
-/

namespace Sys2Proof.Machine

/-- Settles O33: no kind of step writes the wordlist. -/
theorem wordlistConstant : Obligations.WordlistConstant := by
  intro s t h
  cases step_result h with
  | quiet | accept | reset => rfl
  | engine _ _ ht => cases ht <;> rfl

/-- Settles O55: of the four kinds of step, only an acceptance and a reset write CMD. -/
theorem commandRegisterRule : Obligations.CommandRegisterRule := by
  intro s t h
  cases step_result h with
  | quiet => exact .inl rfl
  | accept v _ hin hidle => exact .inr (.inr ⟨v, _, hin, hidle, rfl⟩)
  | reset hin => exact .inr (.inl ⟨_, hin, rfl⟩)
  | engine _ _ ht => cases ht <;> exact .inl rfl

/-- Settles O56: an engine step that ends with an error leaves RESULT, LANG and IDX. -/
theorem resultWrittenOnSuccessOnly : Obligations.ResultWrittenOnSuccessOnly := by
  intro s t h
  cases step_result h with
  | quiet | accept => exact .inl ⟨rfl, rfl, rfl⟩
  | reset hin => exact .inr (.inl ⟨_, hin⟩)
  | engine _ hbusy ht =>
    cases ht with
    | error => exact .inl ⟨rfl, rfl, rfl⟩
    | success => exact .inr (.inr ⟨hbusy, rfl⟩)

/-- BUSY is 0 after a success. -/
theorem busy_of_statusSuccess {s : State} (h : s.status = statusSuccess) : s.busy = false := by
  rw [State.busy, h]
  rfl

/-- Settles O57: after a success BUSY = 0, so the engine has no step. -/
theorem validStays : Obligations.ValidStays := by
  intro s t h hs
  cases step_result h with
  | quiet => exact .inl hs
  | accept v _ hin => exact .inr (.inr ⟨v, _, hin, rfl, rfl⟩)
  | reset hin => exact .inr (.inl ⟨_, hin⟩)
  | engine _ hbusy => simp [busy_of_statusSuccess hs] at hbusy

theorem statusBusy_ne_statusError : statusBusy ≠ statusError := by decide

theorem statusBusy_ne_statusSuccess : statusBusy ≠ statusSuccess := by decide

theorem statusError_ne_statusSuccess : statusError ≠ statusSuccess := by decide

/-- The invariant of a state whose registers hold no result and no completion (R24, R36). -/
theorem inv_of_zero {s : State} (hs : s.status = 0) (he : s.errinfo = 0) (hr : s.result = 0)
    (hi : ∀ (i : Nat) (h : i < 24), s.idx[i] = 0) : Inv s where
  status_legal := .inl hs
  errinfo_error h := by simp [hs, statusError] at h
  errinfo_zero _ := he
  idx_small i h := by simp [hi i h]
  result_legal := .inl hr
  valid_result h := by simp [hs, statusSuccess] at h

/-- The invariant speaks of the engine's registers: what a host writes to the buffers does not matter. -/
theorem Inv.quiet {s : State} (h : Inv s) (e : Block) (w : Vector Block 24) (k : Nat) (ins : List Input)
    (resp : List Response) : Inv { s with entW := e, wordW := w, draws := k, inputs := ins, responses := resp } :=
  ⟨h.status_legal, h.errinfo_error, h.errinfo_zero, h.idx_small, h.result_legal, h.valid_result⟩

/-- Acceptance clears VALID, ERR and ERRINFO and leaves the result registers (20_memory R72). -/
theorem Inv.accept {s : State} (h : Inv s) (v : Word32) (ins : List Input) (resp : List Response) :
    Inv { s with cmd := v, status := statusBusy, errinfo := 0, inputs := ins, responses := resp } where
  status_legal := .inr (.inl rfl)
  errinfo_error h := absurd h statusBusy_ne_statusError
  errinfo_zero _ := rfl
  idx_small := h.idx_small
  result_legal := h.result_legal
  valid_result h := absurd h statusBusy_ne_statusSuccess

/-- An error completion writes a legal ERRINFO and leaves the result registers (60_exceptions R231). -/
theorem Inv.error {s : State} (h : Inv s) {w : Word32} (hw : IsErrinfo w) (script : List (Option (Vector Byte 32)))
    (k : Nat) (ins : List Input) :
    Inv { s with status := statusError, errinfo := w, rngScript := script, draws := k, inputs := ins } where
  status_legal := .inr (.inr (.inr rfl))
  errinfo_error _ := hw
  errinfo_zero h := absurd rfl h
  idx_small := h.idx_small
  result_legal := h.result_legal
  valid_result h := absurd h statusError_ne_statusSuccess

/-- An INDEX field is the low 11 bits of its register (10_state R29). -/
theorem State.index_eq (s : State) {i : Nat} (h : i < 24) : s.index i = s.idx[i].toNat % 2048 := by
  simp [State.index, field, h]

/-- After the commit of a row the IDX registers hold its indices, and 0 beyond them. -/
theorem IsEncoding.commit_idx_toNat {ent : Bytes} {n c : Nat} {ix : List Nat} (hrow : IsEncoding ent n c ix) (s : State)
    {i : Nat} (h : i < 24) :
    (complete (commit ent n (csOfWords n) c ix s)).idx[i].toNat = if i < n then ix.getD i 0 else 0 := by
  have hlt := hrow.getD_lt i
  rw [complete_idx, commit_idx, getElem_tabulate]
  split
  · rw [BitVec.toNat_ofNat, Nat.mod_eq_of_lt (by omega)]
  · rfl

/-- A success commits a row, so the invariant holds whatever the registers held before (41_encode R162, 42_decode R191). -/
theorem IsEncoding.inv_commit {s : State} {ent : Bytes} {n c : Nat} {ix : List Nat} (hrow : IsEncoding ent n c ix)
    (hcmd : ∃ i, decode s.cmd = .command i) (hv : wlValid s.wl = true) :
    Inv (complete (commit ent n (csOfWords n) c ix s)) where
  status_legal := .inr (.inr (.inl rfl))
  errinfo_error h := absurd h statusError_ne_statusSuccess.symm
  errinfo_zero _ := rfl
  idx_small i h := by
    rw [hrow.commit_idx_toNat s h]
    split
    · exact hrow.getD_lt i
    · decide
  result_legal := .inr ⟨n, c, hrow.isResult⟩
  valid_result _ := by
    obtain ⟨-, -, -, hpos, h24, -, -⟩ := supportedWords_row hrow.supported
    refine ⟨hcmd, hv, rfl, n, c, hrow.isResult, fun i h hi => BitVec.eq_of_toNat_eq ?_, ?_⟩
    · rw [hrow.commit_idx_toNat s h, if_neg (Nat.not_lt.2 hi)]
      rfl
    · rw [State.index_eq _ (by omega), hrow.commit_idx_toNat s (by omega), if_pos (by omega),
        Nat.mod_eq_of_lt (hrow.getD_lt _), hrow.checksum]

/-- Settles O58 (R36). -/
theorem resetMeetsInvariant : Obligations.ResetMeetsInvariant :=
  inv_of_zero rfl rfl rfl fun _ h => Vector.getElem_replicate h

/-- Settles O59, by the four kinds of step; only a success writes RESULT and IDX, and what it commits is a row's. -/
theorem stepKeepsInvariant : Obligations.StepKeepsInvariant := by
  intro s t hs h
  cases step_result h with
  | quiet e w k resp => exact hs.quiet e w k _ resp
  | accept v resp => exact hs.accept v _ resp
  | reset => exact inv_of_zero rfl rfl rfl fun _ h => Vector.getElem_replicate h
  | engine _ _ ht =>
    cases ht with
    | error w script k hw => exact hs.error hw script k _
    | success ent n c ix script k hcmd hv hrow => exact hrow.inv_commit hcmd hv

end Sys2Proof.Machine
end

section
/-!
How bytes stand in the registers (10_state R28, R30, R31, 20_memory R66), and the reset value of every register (R36).
-/

namespace Sys2Proof.Machine

/-- `ENT[0..L-1]` is the first L bytes of the entropy buffer (R28). -/
theorem entBytes_eq_map (s : State) {len : Nat} (h : len ≤ 32) :
    entBytes s len = (List.range len).map (blockByte s.entW) := by
  rw [entBytes, blockBytes, ← List.map_take, List.take_range, Nat.min_eq_left h]

/-- `WORD[i]` is the word of slot i (R30, R31). -/
theorem wordAtSlot_eq (s : State) {i : Nat} (h : i < 24) : wordAtSlot s i = slotWord s.wordW[i] := by
  rw [wordAtSlot, Vector.getElem?_eq_getElem h, Option.getD_some]

/-- A slot's word ends before its first byte 0x00, and is all 32 bytes if there is none (R31). -/
theorem slotWord_eq_map {blk : Block} {z : Nat} (hz : z ≤ 32) (hne : ∀ m < z, blockByte blk m ≠ 0)
    (h0 : z < 32 → blockByte blk z = 0) : slotWord blk = (List.range z).map (blockByte blk) := by
  have hsplit : blockBytes blk = (List.range z).map (blockByte blk) ++
      (List.range (32 - z)).map fun m => blockByte blk (z + m) := by
    rw [blockBytes, ← Nat.add_sub_cancel' hz, List.range_add, List.map_append, List.map_map, Nat.add_sub_cancel' hz]
    rfl
  have hpre : ∀ b ∈ (List.range z).map (blockByte blk), decide (b ≠ 0) = true := by
    simpa using hne
  rw [slotWord, hsplit, List.takeWhile_append_of_pos hpre]
  rcases Nat.eq_zero_or_pos (32 - z) with h | h
  · simp [h]
  · obtain ⟨m, hm⟩ := Nat.exists_eq_succ_of_ne_zero h.ne'
    simp [hm, List.range_succ_eq_map, h0 (by omega)]

/-- Settles O60, clause by clause. -/
theorem bytePacking : Obligations.BytePacking :=
  ⟨getLsbD_blockByte, fun s _ h => entBytes_eq_map s h, fun s _ h => wordAtSlot_eq s h,
    fun _ _ hz hne h0 => slotWord_eq_map hz hne h0,
    fun w h => ⟨holdsBytes_blockOfBytes w, slotWord_blockOfBytes w h⟩⟩

/-- Every byte of all-zero registers is 0x00. -/
theorem blockByte_replicate_zero (k : Nat) : blockByte (.replicate 8 0) k = 0 := by
  have hr : ((Vector.replicate 8 (0 : Word32))[k / 4]?).getD 0 = 0 := by
    rw [Vector.getElem?_replicate]
    split <;> rfl
  rw [blockByte, hr]
  exact BitVec.extractLsb'_zero

/-- An all-zero slot is empty (R31). -/
theorem slotWord_replicate_zero : slotWord (.replicate 8 0) = [] :=
  slotWord_eq_map (Nat.zero_le _) (by simp) fun _ => blockByte_replicate_zero 0

/-- Settles O1 (R36). -/
theorem resetValues : Obligations.ResetValues := by
  refine ⟨⟨rfl, rfl, rfl, rfl, rfl, ?_, ?_, ?_⟩, rfl, rfl, rfl, rfl, ?_, fun i h => ?_⟩
  · exact fun j h => Vector.getElem_replicate h
  · exact fun i h => Vector.getElem_replicate h
  · intro i hi j hj
    simp [State.reset]
  · exact (entBytes_eq_map _ le_rfl).trans (List.map_eq_replicate_iff.2 fun k _ => blockByte_replicate_zero k)
  · rw [wordAtSlot_eq _ h, ← slotWord_replicate_zero]
    exact congrArg slotWord (Vector.getElem_replicate h)

end Sys2Proof.Machine
end

section
/-!
The engine's turn (20_memory R72, R73): what a step does while BUSY = 1, and that an accepted command completes unless a
reset abandons it (60_exceptions R231, R232, 70_reset R261, R280).
-/

namespace Sys2Proof.Machine

/-- Every meaning answers: no path of a command ends in a fault or a refusal. -/
theorem exec_answers (i : Instr) (s : State) : Answers (exec i s) := by
  cases i with
  | encode len => rcases execEncode_cases len s with ⟨-, h⟩ | ⟨-, -, h⟩ | ⟨-, -, h⟩ <;> exact ⟨_, h⟩
  | encodeRandom wc =>
    rcases execEncodeRandom_cases wc s with ⟨-, h⟩ | ⟨-, -, h⟩ | ⟨-, -, _, -, h⟩ | ⟨-, -, _, _, -, h⟩ <;> exact ⟨_, h⟩
  | decode n verify =>
    rcases execDecode_cases n verify s with ⟨-, h⟩ | ⟨-, -, h⟩ | ⟨-, -, _, -, h⟩ | ⟨-, -, _, -, h⟩ <;> exact ⟨_, h⟩

/-- The engine's step answers, whatever word stands in CMD (R95, R96). -/
theorem engineStep_answers (s : State) : Answers (engineStep s) := by
  rcases engineStep_cases s with ⟨_, -, h⟩ | ⟨i, -, h⟩
  · exact ⟨_, h⟩
  · rw [h]
    exact exec_answers i s

theorem engineTurn_of_busy {s : State} (h : s.busy = true) : engineTurn s = engineStep s := by
  rw [engineTurn, if_pos h]

/-- While BUSY = 1 the engine's turn runs the decoded command (R95). -/
theorem engineTurn_of_command {s : State} {i : Instr} (hb : s.busy = true) (hi : decode s.cmd = .command i) :
    engineTurn s = exec i s := by
  rw [engineTurn_of_busy hb, engineStep, hi]

/-- While BUSY = 1 the engine's turn ends an Illegal word with IllegalCommand (R96). -/
theorem engineTurn_of_illegal {s : State} {r : IllegalReason} (hb : s.busy = true) (hr : decode s.cmd = .illegal r) :
    engineTurn s = .next (raiseErr .illegalCommand 0 s) := by
  rw [engineTurn_of_busy hb, engineStep, hr]

theorem engineTurn_of_idle {s : State} (h : s.busy = false) : engineTurn s = .next s := by
  rw [engineTurn, h]
  rfl

/-- A step with no event pending is the engine's turn. -/
theorem step_of_no_input {s : State} (h : s.inputs = []) : step s = engineTurn s := by
  rw [step, advance, h]

/-- A step takes the first pending event. -/
theorem step_of_input {s : State} {e : Input} {rest : List Input} (h : s.inputs = e :: rest) :
    step s = takeInput e { s with inputs := rest } := by
  rw [step, advance, h]

/-- BUSY is 0 after an error. -/
theorem busy_of_statusError {s : State} (h : s.status = statusError) : s.busy = false := by
  rw [State.busy, h]
  rfl

/-- A completion keeps CMD and leaves DONE and VALID, or ERR (60_exceptions R231, R232). -/
theorem EngineResult.completed {s t : State} (h : EngineResult s t) :
    t.cmd = s.cmd ∧ (t.status = statusSuccess ∨ t.status = statusError) := by
  cases h with
  | error => exact ⟨rfl, .inr rfl⟩
  | success => exact ⟨rfl, .inl rfl⟩

theorem EngineResult.idle {s t : State} (h : EngineResult s t) : t.busy = false :=
  h.completed.2.elim busy_of_statusSuccess busy_of_statusError

/-- While BUSY = 1 the engine's turn is a completion (R73). -/
theorem engineTurn_completes {s : State} (h : s.busy = true) : ∃ t, engineTurn s = .next t ∧ EngineResult s t := by
  obtain ⟨t, ht⟩ := engineStep_answers s
  exact ⟨t, (engineTurn_of_busy h).trans ht, engineStep_result ht⟩

/-- Settles O8: the engine's turn runs the decoded command, with its place taken off the list of events or that list
empty. -/
theorem stepRunsCommand : Obligations.StepRunsCommand := by
  intro s i hb hi _
  refine ⟨fun hin => ?_, fun rest hin => ?_⟩
  · exact (step_of_no_input hin).trans (engineTurn_of_command hb hi)
  · exact (step_of_input hin).trans (engineTurn_of_command (s := { s with inputs := rest }) hb hi)

/-- Settles O9: the engine's turn is a completion while BUSY = 1, and both completions clear BUSY. -/
theorem engineStepClearsBusy : Obligations.EngineStepClearsBusy := by
  refine fun s => ⟨fun hb => ?_, engineTurn_of_idle⟩
  obtain ⟨t, ht, hres⟩ := engineTurn_completes hb
  exact ⟨t, ht, hres.idle⟩

/-- A write while BUSY = 1 does nothing but record its answer (R69, R72). -/
theorem hostWrite_of_busy (off : BitVec 12) (width : Width) (v : Word32) {s : State} (hb : s.busy = true) :
    ∃ a, hostWrite off width v s = { s with responses := s.responses ++ [a] } := by
  obtain ⟨a, ⟨-, -, hidle, -⟩ | ⟨e, w, hbuf, hw⟩⟩ := hostWrite_inversion off width v s
  · simp [hb] at hidle
  · obtain ⟨rfl, rfl⟩ := hbuf hb
    exact ⟨a, hw⟩

/-- A reset leaves every register 0 (70_reset R260). -/
theorem registersZero_resetRegisters (s : State) : RegistersZero (resetRegisters s) := by
  refine ⟨rfl, rfl, rfl, rfl, rfl, fun j h => Vector.getElem_replicate h, fun i h => Vector.getElem_replicate h,
    fun i hi j hj => ?_⟩
  rw [resetRegisters_wordW, Vector.getElem_replicate, Vector.getElem_replicate]

/-- How the command `cmd` has ended in `t`, after the events `taken`: completed, or abandoned by a reset among them. -/
def CommandEnded (cmd : Word32) (taken : List Input) (t : State) : Prop :=
  t.busy = false ∧
    (Input.reset ∉ taken → t.cmd = cmd ∧ (t.status = statusSuccess ∨ t.status = statusError)) ∧
    (Input.reset ∈ taken → RegistersZero t)

/-- An event that is no reset, taken before, does not matter to how the command ends. -/
theorem CommandEnded.cons {cmd : Word32} {taken : List Input} {t : State} (h : CommandEnded cmd taken t) {e : Input}
    (he : e ≠ .reset) : CommandEnded cmd (e :: taken) t := by
  have hmem : Input.reset ∈ e :: taken ↔ Input.reset ∈ taken := by simp [he.symm]
  rw [CommandEnded, hmem]
  exact h

/-- A completion ends the command. -/
theorem EngineResult.commandEnded {s t : State} (h : EngineResult s t) {taken : List Input}
    (hno : Input.reset ∉ taken) : CommandEnded s.cmd taken t :=
  ⟨h.idle, fun _ => h.completed, fun hin => absurd hin hno⟩

/-- A reset abandons the command (70_reset R261). -/
theorem commandEnded_resetRegisters (cmd : Word32) (s : State) {taken : List Input} (hin : Input.reset ∈ taken) :
    CommandEnded cmd taken (resetRegisters s) :=
  ⟨by simp [State.busy], fun hno => absurd hin hno, fun _ => registersZero_resetRegisters s⟩

/-- While BUSY = 1 every step answers: it takes a host access and the command waits, or the command has ended. -/
theorem step_of_busy {s : State} (hb : s.busy = true) : ∃ t, step s = .next t ∧
    ((∃ e, e ≠ .reset ∧ s.inputs = e :: t.inputs ∧ t.busy = true ∧ t.cmd = s.cmd) ∨
      CommandEnded s.cmd (s.inputs.take 1) t) := by
  rcases hin : s.inputs with _ | ⟨e, rest⟩
  · obtain ⟨t, ht, hres⟩ := engineTurn_completes hb
    exact ⟨t, (step_of_no_input hin).trans ht, .inr (hres.commandEnded nofun)⟩
  · rw [step_of_input hin]
    cases e with
    | read off width =>
      obtain ⟨a, k, hr⟩ := hostRead_eq off width { s with inputs := rest }
      exact ⟨_, congrArg Host.Outcome.next hr, .inl ⟨.read off width, nofun, rfl, hb, rfl⟩⟩
    | write off width v =>
      obtain ⟨a, hw⟩ := hostWrite_of_busy off width v (s := { s with inputs := rest }) hb
      exact ⟨_, congrArg Host.Outcome.next hw, .inl ⟨.write off width v, nofun, rfl, hb, rfl⟩⟩
    | reset => exact ⟨_, rfl, .inr (commandEnded_resetRegisters s.cmd _ List.mem_cons_self)⟩
    | engine =>
      obtain ⟨t, ht, hres⟩ := engineTurn_completes (s := { s with inputs := rest }) hb
      exact ⟨t, ht, .inr (hres.commandEnded (by simp))⟩

theorem run_succ_of_step {M : Host.Core} {s t : M.State} (h : M.step s = .next t) (k : Nat) :
    M.run (k + 1) s = M.run k t := by
  rw [Host.Core.run, h]

/-- The run of a busy block reaches the command's end within one step per pending event and one more, by induction on
these events: each step ends the command or takes one of them. -/
theorem run_ends_command (ins : List Input) : ∀ s : State, s.inputs = ins → s.busy = true →
    ∃ k t, k ≤ ins.length + 1 ∧ Host.Core.run Sys2Proof.core k s = .next t ∧ CommandEnded s.cmd (ins.take k) t := by
  induction ins with
  | nil =>
    intro s hin hb
    obtain ⟨t, hstep, ⟨e, -, h, -⟩ | hend⟩ := step_of_busy hb
    · simp [hin] at h
    · exact ⟨1, t, le_rfl, run_succ_of_step hstep 0, hin ▸ hend⟩
  | cons e rest ih =>
    intro s hin hb
    obtain ⟨t, hstep, ⟨e', he, h, hbusy, hcmd⟩ | hend⟩ := step_of_busy hb
    · obtain ⟨rfl, htail⟩ := List.cons.inj (hin.symm.trans h)
      obtain ⟨k, u, hk, hrun, hend⟩ := ih t htail.symm hbusy
      rw [hcmd] at hend
      exact ⟨k + 1, u, Nat.succ_le_succ hk, (run_succ_of_step hstep k).trans hrun, hend.cons he⟩
    · exact ⟨1, t, by simp, run_succ_of_step hstep 0, hin ▸ hend⟩

/-- Settles O10, by induction on the pending events. -/
theorem acceptedCommandCompletes : Obligations.AcceptedCommandCompletes :=
  fun s hb => run_ends_command s.inputs s rfl hb

end Sys2Proof.Machine
end

section
/-!
The address map (20_memory R62 to R65) and the accesses that get a bus error.
-/

namespace Sys2Proof.Machine

/-- A register's own offset reaches it (R62). -/
theorem regAt_offset (r : Reg) : regAt r.offset = some r := by
  cases r with
  | cmd | status | errinfo | result | lang => rfl
  | ent | idx | word =>
    rw [regAt, Reg.offset]
    iterate 6 rw [if_neg (by omega)]
    repeat rw [dif_neg (by omega)]
    rw [dif_pos (by omega)]
    congr <;> omega

/-- An offset that reaches a register is that register's (R62). -/
theorem eq_offset_of_regAt {off : Nat} {r : Reg} (h : regAt off = some r) : off = r.offset := by
  unfold regAt at h
  split_ifs at h <;> obtain rfl := Option.some.inj h <;> simp only [Reg.offset] <;> omega

/-- Settles O12. -/
theorem addressMap : Obligations.AddressMap :=
  ⟨rfl, rfl, rfl, rfl, rfl, fun j => regAt_offset (.ent j), fun i => regAt_offset (.idx i),
    fun i j => regAt_offset (.word i j), fun _ _ => eq_offset_of_regAt⟩

/-- Every register stands at a multiple of 4 in one of the four mapped ranges (R62, R63). -/
theorem Reg.offset_mapped (r : Reg) : r.offset % 4 = 0 ∧
    (r.offset < 0x014 ∨ (0x100 ≤ r.offset ∧ r.offset < 0x120) ∨ (0x200 ≤ r.offset ∧ r.offset < 0x260) ∨
      (0x400 ≤ r.offset ∧ r.offset < 0x700)) := by
  cases r with
  | cmd | status | errinfo | result | lang => decide
  | ent | idx | word =>
    simp only [Reg.offset]
    omega

/-- An access that reaches a register is 4 bytes wide and at the register's offset. -/
theorem target_eq_some {off : BitVec 12} {width : Width} {r : Reg} (h : target off width = some r) :
    width = .w4 ∧ off.toNat = r.offset := by
  cases width with
  | w1 | w2 | w8 => cases h
  | w4 => exact ⟨rfl, eq_offset_of_regAt h⟩

/-- An access that reaches no register gets a bus error and changes nothing (R63, R65). -/
theorem busError_of_target_none {off : BitVec 12} {width : Width} (h : ∀ r, target off width ≠ some r) (v : Word32)
    (s : State) : hostRead off width s = { s with responses := s.responses ++ [.busError] } ∧
      hostWrite off width v s = { s with responses := s.responses ++ [.busError] } := by
  have hnone : target off width = none := Option.eq_none_iff_forall_ne_some.2 h
  rw [hostRead, hostWrite, hnone]
  exact ⟨rfl, rfl⟩

/-- Settles O13: no register stands in the unmapped ranges. -/
theorem unmappedIsBusError : Obligations.UnmappedIsBusError := by
  refine fun off width v s hoff => busError_of_target_none (fun r hr => ?_) v s
  obtain ⟨-, hat⟩ := target_eq_some hr
  have hmapped := r.offset_mapped
  omega

/-- Settles O14: only an aligned access of 4 bytes reaches a register. -/
theorem widthAndAlignment : Obligations.WidthAndAlignment := by
  refine fun off width v s hoff => busError_of_target_none (fun r hr => ?_) v s
  obtain ⟨hwidth, hat⟩ := target_eq_some hr
  have hmapped := r.offset_mapped
  exact hoff.elim (· hwidth) (by omega)

end Sys2Proof.Machine
end

section
/-!
Host reads and writes of mapped registers (20_memory R68 to R72, R77).
-/

namespace Sys2Proof.Machine

/-- The registers other than CMD, STATUS and ERRINFO read as free values while BUSY = 1 (R68). -/
theorem Reg.drawnWhileBusy_iff (r : Reg) : r.drawnWhileBusy = true ↔ r ≠ .cmd ∧ r ≠ .status ∧ r ≠ .errinfo := by
  cases r <;> simp [Reg.drawnWhileBusy]

/-- A read of a mapped register (R68). -/
theorem hostRead_of_regAt {off : BitVec 12} {r : Reg} (h : regAt off.toNat = some r) (s : State) :
    hostRead off .w4 s = if s.busy = true ∧ r.drawnWhileBusy = true then
      { s with responses := s.responses ++ [.readOk (Config.busyRead s.draws)], draws := s.draws + 1 }
    else { s with responses := s.responses ++ [.readOk (readReg s r)] } := by
  have ht : target off .w4 = some r := h
  simp only [hostRead, ht, Bool.and_eq_true, respond]

/-- A write of a mapped register is never an error (R69). -/
theorem hostWrite_of_regAt {off : BitVec 12} {r : Reg} (h : regAt off.toNat = some r) (v : Word32) (s : State) :
    hostWrite off .w4 v s = respond .writeOk (writeReg r v s) := by
  have ht : target off .w4 = some r := h
  rw [hostWrite, ht]

/-- Masking keeps the bits of the mask and clears the others. -/
theorem getLsbD_and_mask {m : Word32} {p : Nat → Prop} [DecidablePred p] (hm : ∀ k < 32, m.getLsbD k = decide (p k))
    (w : Word32) : ∀ k < 32, (w &&& m).getLsbD k = (decide (p k) && w.getLsbD k) := by
  intro k hk
  rw [BitVec.getLsbD_and, hm k hk, Bool.and_comm]

/-- Settles O15: the masks of `readReg` are the fields of STATUS, ERRINFO, RESULT and IDX (10_state R24, R25, R26, R29). -/
theorem hostReadValue : Obligations.HostReadValue := by
  refine ⟨fun off r s h => ?_, fun s => ⟨rfl, rfl, fun _ => rfl, fun _ _ => rfl, ?_, ?_, ?_, fun i => ?_⟩⟩
  · simp only [hostRead_of_regAt h, r.drawnWhileBusy_iff]
  · exact getLsbD_and_mask (by decide) s.status
  · exact getLsbD_and_mask (by decide) s.errinfo
  · exact getLsbD_and_mask (by decide) s.result
  · exact getLsbD_and_mask (by decide) s.idx[i]

/-- Only CMD, ENT_W and WORD_W are writable (R69). -/
theorem writeReg_of_readOnly {r : Reg}
    (h : r = .status ∨ r = .errinfo ∨ r = .result ∨ r = .lang ∨ ∃ i, r = .idx i) (v : Word32) (s : State) :
    writeReg r v s = s := by
  rcases h with rfl | rfl | rfl | rfl | ⟨i, rfl⟩ <;> rfl

/-- While BUSY = 1 every write is dropped (R69, R72). -/
theorem writeReg_of_busy (r : Reg) (v : Word32) {s : State} (hb : s.busy = true) : writeReg r v s = s := by
  cases r with
  | cmd | ent | word => exact if_pos hb
  | status | errinfo | result | lang | idx => rfl

theorem writeReg_ent_of_idle (j : Fin 8) (v : Word32) {s : State} (hb : s.busy = false) :
    writeReg (.ent j) v s = { s with entW := s.entW.set j v } := by
  rw [writeReg, hb]
  rfl

theorem writeReg_word_of_idle (i : Fin 24) (j : Fin 8) (v : Word32) {s : State} (hb : s.busy = false) :
    writeReg (.word i j) v s = { s with wordW := s.wordW.set i (s.wordW[i].set j v) } := by
  rw [writeReg, hb]
  rfl

/-- Acceptance leaves BUSY alone set (R72). -/
theorem flags_of_statusBusy {s : State} (h : s.status = statusBusy) :
    s.busy = true ∧ s.done = false ∧ s.err = false ∧ s.valid = false := by
  rw [State.busy, State.done, State.err, State.valid, h]
  decide

/-- A CMD write while BUSY = 0 is accepted (R72). -/
theorem hostWrite_cmd_of_idle (v : Word32) {s : State} (hb : s.busy = false) : hostWrite 0x000 .w4 v s =
    { s with cmd := v, status := statusBusy, errinfo := 0, responses := s.responses ++ [.writeOk] } := by
  rw [hostWrite_of_regAt (r := .cmd) rfl, writeReg, acceptCommand, hb]
  rfl

/-- A mapped write while BUSY = 1 does nothing but complete. -/
theorem hostWrite_of_regAt_busy {off : BitVec 12} {r : Reg} (h : regAt off.toNat = some r) (v : Word32) {s : State}
    (hb : s.busy = true) : hostWrite off .w4 v s = { s with responses := s.responses ++ [.writeOk] } := by
  rw [hostWrite_of_regAt h, writeReg_of_busy r v hb, respond]

/-- Setting register `j` of slot `i` sets it and leaves every other register of the slots. -/
theorem getElem_set_slot (w : Vector Block 24) (i : Fin 24) (j : Fin 8) (v : Word32) :
    (w.set i (w[i].set j v))[i][j] = v ∧
      ∀ (a : Fin 24) (b : Fin 8), (a, b) ≠ (i, j) → (w.set i (w[i].set j v))[a][b] = w[a][b] := by
  refine ⟨by simp, fun a b hne => ?_⟩
  by_cases ha : i = a
  · subst ha
    have hb : (j : Nat) ≠ b := fun h => hne (by rw [Fin.ext h])
    simp [Vector.getElem_set_ne _ _ hb]
  · have ha' : (i : Nat) ≠ a := fun h => ha (Fin.ext h)
    simp [Vector.getElem_set_ne _ _ ha']

/-- Settles O16, register by register. -/
theorem hostWriteEffect : Obligations.HostWriteEffect := by
  intro off v s
  refine ⟨fun r h hr => ?_, fun j h => ⟨hostWrite_of_regAt_busy h v, fun hb => ?_⟩,
    fun i j h => ⟨hostWrite_of_regAt_busy h v, fun hb => ?_⟩⟩
  · rw [hostWrite_of_regAt h, writeReg_of_readOnly hr, respond]
  · refine ⟨s.entW.set j v, ?_, by simp, fun k hk => ?_⟩
    · rw [hostWrite_of_regAt h, writeReg_ent_of_idle j v hb, respond]
    · exact Vector.getElem_set_ne _ _ fun hjk => hk (Fin.ext hjk.symm)
  · refine ⟨_, ?_, getElem_set_slot s.wordW i j v⟩
    rw [hostWrite_of_regAt h, writeReg_word_of_idle i j v hb, respond]

/-- Settles O17 (R72): acceptance sets BUSY, so the engine's next turn is its step on the accepted word. -/
theorem commandAcceptance : Obligations.CommandAcceptance := by
  refine fun v s => ⟨fun hb => ⟨_, hostWrite_cmd_of_idle v hb, rfl, ?_⟩, hostWrite_of_regAt_busy (r := .cmd) rfl v⟩
  obtain ⟨hbusy, hdone, herr, hvalid⟩ := flags_of_statusBusy (s := { s with
    cmd := v, status := statusBusy, errinfo := 0, responses := s.responses ++ [.writeOk] }) rfl
  exact ⟨hbusy, hdone, herr, hvalid, engineTurn_of_busy hbusy, fun _ hr => engineTurn_of_illegal hbusy hr⟩

/-- Settles O18: a read leaves every register, a write all but CMD, STATUS, ERRINFO, ENT_W and WORD_W, and those too while
BUSY = 1. -/
theorem hostAccessFrame : Obligations.HostAccessFrame := by
  intro off width v s t ht
  obtain ⟨a, k, hr⟩ := hostRead_eq off width s
  by_cases hread : t = hostRead off width s
  · rw [hread, hr]
    exact ⟨rfl, rfl, rfl, rfl, rfl, rfl, ⟨a, rfl⟩, fun _ => ⟨rfl, rfl, rfl, rfl, rfl⟩⟩
  · obtain rfl := ht.resolve_left hread
    rcases hostWrite_inversion off width v s with ⟨a, ⟨-, -, hidle, hw⟩ | ⟨e, w, hbuf, hw⟩⟩ <;> rw [hw] at hread ⊢
    · exact ⟨rfl, rfl, rfl, rfl, rfl, rfl, ⟨a, rfl⟩, fun h => absurd (h.resolve_left hread) (by simp [hidle])⟩
    · exact ⟨rfl, rfl, rfl, rfl, rfl, rfl, ⟨a, rfl⟩, fun h => ⟨rfl, rfl, rfl, hbuf (h.resolve_left hread)⟩⟩

/-- Only a CMD write can set BUSY (R69, R72). -/
theorem writeReg_busy {r : Reg} (hr : r ≠ .cmd) (v : Word32) (s : State) : (writeReg r v s).busy = s.busy := by
  cases r with
  | cmd => exact absurd rfl hr
  | status | errinfo | result | lang | idx => rfl
  | ent | word =>
    rw [writeReg]
    split <;> rfl

/-- Settles O19: while BUSY = 1 nothing is written, and setting a register of an array twice to one value sets it once. -/
theorem writesAreIdempotent : Obligations.WritesAreIdempotent := by
  intro r v s hr
  cases hb : s.busy with
  | true => rw [writeReg_of_busy r v hb, writeReg_of_busy r v hb]
  | false =>
    have hb' : (writeReg r v s).busy = false := (writeReg_busy hr v s).trans hb
    cases r with
    | cmd => exact absurd rfl hr
    | status | errinfo | result | lang | idx => rfl
    | ent j =>
      rw [writeReg_ent_of_idle j v hb', writeReg_ent_of_idle j v hb]
      simp
    | word i j =>
      rw [writeReg_word_of_idle i j v hb', writeReg_word_of_idle i j v hb]
      simp

end Sys2Proof.Machine
end

section
/-!
The command word (30_encoding R90 to R95, R101): what a decoded word says of its five fields, and the word a command
assembles to as a number.
-/

namespace Sys2Proof

/-- OP [3:0] of a command (30_encoding R91). -/
def Instr.op : Instr → Nat
  | .encode _ => 1
  | .encodeRandom _ => 2
  | .decode _ _ => 3

/-- VERIFY [4] of a command: 0 for ENCODE and ENCODE_RANDOM (30_encoding R92). -/
def Instr.verify : Instr → Bool
  | .encode _ => false
  | .encodeRandom _ => false
  | .decode _ v => v

/-- The fields of a word are those of the command: OP, VERIFY and LEN its own, the reserved ones 0 (30_encoding R90). -/
def HasFields (w : Word32) (i : Instr) : Prop :=
  field w 31 16 = 0 ∧ field w 15 8 = i.len ∧ field w 7 5 = 0 ∧ field w 4 4 = i.verify.toNat ∧ field w 3 0 = i.op

/-- The fields of R90 as quotients and remainders. -/
theorem fields_eq (w : Word32) :
    field w 31 16 = w.toNat / 65536 ∧ field w 15 8 = w.toNat / 256 % 256 ∧ field w 7 5 = w.toNat / 32 % 8 ∧
      field w 4 4 = w.toNat / 16 % 2 ∧ field w 3 0 = w.toNat % 16 := by
  simp only [field, Nat.shiftRight_eq_div_pow]
  omega

/-- LEN [15:8] as a range of bits (30_encoding R90). -/
theorem field_len (w : Word32) : field w 15 8 = (w.extractLsb' 8 8).toNat := by
  rw [field, BitVec.extractLsb'_toNat]

/-- VERIFY [4] as a bit (30_encoding R90). -/
theorem field_verify (w : Word32) : field w 4 4 = (w.getLsbD 4).toNat := by
  rw [field, BitVec.getLsbD, Nat.toNat_testBit, Nat.shiftRight_eq_div_pow]
  rfl

theorem field_verify_eq_iff (w : Word32) (v : Bool) : field w 4 4 = v.toNat ↔ v = w.getLsbD 4 := by
  rw [field_verify]
  cases w.getLsbD 4 <;> cases v <;> decide

theorem Instr.op_lt (i : Instr) : i.op < 16 := by
  cases i <;> simp [Instr.op]

/-- A word has a command's fields exactly when it is the number they spell, the command being well-formed. -/
theorem hasFields_iff_toNat (w : Word32) (i : Instr) :
    HasFields w i ↔ i.WellFormed ∧ w.toNat = i.op + 16 * i.verify.toNat + 256 * i.len := by
  have hop := i.op_lt
  have hv := i.verify.toNat_lt
  obtain ⟨h31, h15, h7, h4, h3⟩ := fields_eq w
  rw [HasFields, h31, h15, h7, h4, h3, Instr.WellFormed]
  omega

/-- The decoder gives a command exactly where the word has the command's fields (30_encoding R95). -/
theorem decode_eq_command_iff (w : Word32) (i : Instr) : decode w = .command i ↔ HasFields w i := by
  constructor
  · intro h
    unfold decode at h
    split_ifs at h with hrsv h1 hv h2 hv h3 <;> obtain rfl := Decoded.command.inj h <;>
      obtain ⟨h7, h31⟩ : field w 7 5 = 0 ∧ field w 31 16 = 0 := by simpa using hrsv
    · exact ⟨h31, rfl, h7, hv, h1⟩
    · exact ⟨h31, rfl, h7, hv, h2⟩
    · refine ⟨h31, rfl, h7, ?_, h3⟩
      rw [Instr.verify, field_verify]
      cases w.getLsbD 4 <;> rfl
  · rintro ⟨h31, h15, h7, h4, h3⟩
    cases i with
    | encode | encodeRandom => simp [decode, h31, h15, h7, h4, h3, Instr.len, Instr.verify, Instr.op]
    | decode n v => cases v <;> simp [decode, h31, h15, h7, h4, h3, Instr.len, Instr.verify, Instr.op]

/-- A header of fewer than 8 bits under a length in LEN [15:8], as a number. -/
theorem toNat_header_or_len {h l : Nat} (hh : h < 256) (hl : l < 256) :
    (BitVec.ofNat 32 (h ||| (l <<< 8))).toNat = h + 256 * l := by
  rw [Nat.or_comm, ← Nat.shiftLeft_add_eq_or_of_lt (by omega), BitVec.toNat_ofNat, Nat.shiftLeft_eq]
  omega

/-- The word a command assembles to, as a number (30_encoding R101). -/
theorem toNat_encode {i : Instr} (hi : i.WellFormed) :
    (encode i).toNat = i.op + 16 * i.verify.toNat + 256 * i.len := by
  cases i with
  | encode l => exact toNat_header_or_len (by decide) hi
  | encodeRandom n => exact toNat_header_or_len (by decide) hi
  | decode n v => cases v <;> exact toNat_header_or_len (by decide) hi

/-- Settles O3: an assembled word has the fields of its command. -/
theorem decodeEncode : Obligations.DecodeEncode := fun i hi =>
  (decode_eq_command_iff _ i).2 ((hasFields_iff_toNat _ i).2 ⟨hi, toNat_encode hi⟩)

/-- Settles O4: the fields spell the whole word, so no other word has those of a command. -/
theorem encodeDecode : Obligations.EncodeDecode := by
  intro w i h
  obtain ⟨hi, hw⟩ := (hasFields_iff_toNat w i).1 ((decode_eq_command_iff w i).1 h)
  exact ⟨hi, BitVec.eq_of_toNat_eq ((toNat_encode hi).trans hw.symm)⟩

end Sys2Proof
end

section
/-!
The opcode map (30_encoding R99, R100): its masks as comparisons of fields, and the words of the supported lengths.
-/

namespace Sys2Proof

/-- `AND` works on the bits from `k` up and on those below `k` apart. -/
theorem and_eq_high_add_low (k n m : Nat) :
    n &&& m = 2 ^ k * (n / 2 ^ k &&& m / 2 ^ k) + (n % 2 ^ k &&& m % 2 ^ k) := by
  rw [← Nat.and_div_two_pow, ← Nat.and_mod_two_pow, Nat.div_add_mod]

/-- A mask with `k` ones at its low end keeps the low `k` bits. -/
theorem and_ones_below (k n m : Nat) : n &&& (2 ^ k * m + (2 ^ k - 1)) = 2 ^ k * (n / 2 ^ k &&& m) + n % 2 ^ k := by
  have hk : 2 ^ k - 1 < 2 ^ k := Nat.sub_one_lt (Nat.two_pow_pos k).ne'
  rw [and_eq_high_add_low k, Nat.mul_add_div (Nat.two_pow_pos k), Nat.div_eq_of_lt hk, Nat.mul_add_mod,
    Nat.mod_eq_of_lt hk, Nat.and_two_pow_sub_one_eq_mod, Nat.mod_mod, Nat.add_zero]

/-- A mask with `k` zeros at its low end clears the low `k` bits. -/
theorem and_zeros_below (k n m : Nat) : n &&& 2 ^ k * m = 2 ^ k * (n / 2 ^ k &&& m) := by
  rw [and_eq_high_add_low k, Nat.mul_div_cancel_left _ (Nat.two_pow_pos k), Nat.mul_mod_right, Nat.and_zero, Nat.add_zero]

/-- A word under the mask of ENCODE and ENCODE_RANDOM: every field but LEN is compared (30_encoding R99). -/
theorem and_mask_of_encode_iff (w : Word32) {m : Word32} (hm : m.toNat < 16) : w &&& 0xFFFF00FF = m ↔
    field w 31 16 = 0 ∧ field w 7 5 = 0 ∧ field w 4 4 = 0 ∧ field w 3 0 = m.toNat := by
  have hmask : (0xFFFF00FF : Word32).toNat = 2 ^ 8 * (2 ^ 8 * (2 ^ 16 - 1)) + (2 ^ 8 - 1) := rfl
  rw [← BitVec.toNat_inj, BitVec.toNat_and, hmask, and_ones_below, and_zeros_below, Nat.and_two_pow_sub_one_eq_mod]
  have := fields_eq w
  omega

/-- A word under the mask of DECODE: every field but LEN and VERIFY is compared (30_encoding R99). -/
theorem and_mask_of_decode_iff (w : Word32) {m : Word32} (hm : m.toNat < 16) : w &&& 0xFFFF00EF = m ↔
    field w 31 16 = 0 ∧ field w 7 5 = 0 ∧ field w 3 0 = m.toNat := by
  have hmask : (0xFFFF00EF : Word32).toNat =
    2 ^ 4 * (2 ^ 1 * (2 ^ 3 * (2 ^ 8 * (2 ^ 16 - 1)) + (2 ^ 3 - 1))) + (2 ^ 4 - 1) := rfl
  rw [← BitVec.toNat_inj, BitVec.toNat_and, hmask, and_ones_below, and_zeros_below, and_ones_below, and_zeros_below,
    Nat.and_two_pow_sub_one_eq_mod]
  have := fields_eq w
  omega

/-- The row of ENCODE (30_encoding R99). -/
theorem decode_eq_encode_iff (w : Word32) (l : Nat) : decode w = .command (.encode l) ↔
    w &&& 0xFFFF00FF = 0x00000001 ∧ l = (w.extractLsb' 8 8).toNat := by
  rw [decode_eq_command_iff, and_mask_of_encode_iff w (by decide), ← field_len]
  exact ⟨fun ⟨h31, h15, h7, h4, h3⟩ => ⟨⟨h31, h7, h4, h3⟩, h15.symm⟩,
    fun ⟨⟨h31, h7, h4, h3⟩, h15⟩ => ⟨h31, h15.symm, h7, h4, h3⟩⟩

/-- The row of ENCODE_RANDOM (30_encoding R99). -/
theorem decode_eq_encodeRandom_iff (w : Word32) (l : Nat) : decode w = .command (.encodeRandom l) ↔
    w &&& 0xFFFF00FF = 0x00000002 ∧ l = (w.extractLsb' 8 8).toNat := by
  rw [decode_eq_command_iff, and_mask_of_encode_iff w (by decide), ← field_len]
  exact ⟨fun ⟨h31, h15, h7, h4, h3⟩ => ⟨⟨h31, h7, h4, h3⟩, h15.symm⟩,
    fun ⟨⟨h31, h7, h4, h3⟩, h15⟩ => ⟨h31, h15.symm, h7, h4, h3⟩⟩

/-- The row of DECODE, with VERIFY as an operand (30_encoding R92, R99). -/
theorem decode_eq_decode_iff (w : Word32) (l : Nat) (v : Bool) : decode w = .command (.decode l v) ↔
    w &&& 0xFFFF00EF = 0x00000003 ∧ l = (w.extractLsb' 8 8).toNat ∧ v = w.getLsbD 4 := by
  rw [decode_eq_command_iff, and_mask_of_decode_iff w (by decide), ← field_len]
  exact ⟨fun ⟨h31, h15, h7, h4, h3⟩ => ⟨⟨h31, h7, h3⟩, h15.symm, (field_verify_eq_iff w v).1 h4⟩,
    fun ⟨⟨h31, h7, h3⟩, h15, h4⟩ => ⟨h31, h15.symm, h7, (field_verify_eq_iff w v).2 h4, h3⟩⟩

/-- A word is Illegal exactly when it decodes to no command. -/
theorem decode_illegal_iff (w : Word32) : (∃ r, decode w = .illegal r) ↔ ∀ i, decode w ≠ .command i := by
  cases decode w <;> simp

/-- Settles O5: the three rows, and that one word has one decoding. -/
theorem opcodeMap : Obligations.OpcodeMap := by
  intro w
  have enc := decode_eq_encode_iff w
  have rnd := decode_eq_encodeRandom_iff w
  have dec := decode_eq_decode_iff w
  refine ⟨enc, rnd, dec, ?_, ?_, ?_, ?_⟩
  · rw [decode_illegal_iff]
    constructor
    · intro h
      exact ⟨fun m => h _ ((enc _).2 ⟨m, rfl⟩), fun m => h _ ((rnd _).2 ⟨m, rfl⟩), fun m => h _ ((dec _ _).2 ⟨m, rfl, rfl⟩)⟩
    · rintro ⟨h1, h2, h3⟩ i hi
      cases i with
      | encode l => exact h1 ((enc l).1 hi).1
      | encodeRandom l => exact h2 ((rnd l).1 hi).1
      | decode l v => exact h3 ((dec l v).1 hi).1
  · rintro ⟨m1, m2⟩
    simpa [(enc _).2 ⟨m1, rfl⟩] using (rnd _).2 ⟨m2, rfl⟩
  · rintro ⟨m1, m3⟩
    simpa [(enc _).2 ⟨m1, rfl⟩] using (dec _ _).2 ⟨m3, rfl, rfl⟩
  · rintro ⟨m2, m3⟩
    simpa [(rnd _).2 ⟨m2, rfl⟩] using (dec _ _).2 ⟨m3, rfl, rfl⟩

/-- The words a family of commands assembles to decode to the family. -/
theorem map_decode_encode (f : Nat → Instr) (ls : List Nat) (h : ∀ l ∈ ls, (f l).WellFormed) :
    (ls.map fun l => encode (f l)).map decode = ls.map fun l => .command (f l) := by
  rw [List.map_map]
  exact List.map_congr_left fun l hl => decodeEncode (f l) (h l hl)

/-- Settles O6: the words of R100 are those the commands assemble to. -/
theorem supportedCommandWords : Obligations.SupportedCommandWords :=
  ⟨map_decode_encode .encode [16, 20, 24, 28, 32] (by decide),
    map_decode_encode .encodeRandom [12, 15, 18, 21, 24] (by decide),
    map_decode_encode (.decode · true) [12, 15, 18, 21, 24] (by decide),
    map_decode_encode (.decode · false) [12, 15, 18, 21, 24] (by decide)⟩

end Sys2Proof
end

section
/-!
What a step does with every word and every event: an Illegal word (30_encoding R96), and that no step stops (60_exceptions
R230, R236).
-/

namespace Sys2Proof.Machine

/-- The engine's step ends an Illegal word with IllegalCommand (30_encoding R96). -/
theorem engineStep_of_illegal {s : State} {r : IllegalReason} (h : decode s.cmd = .illegal r) :
    engineStep s = .next (raiseErr .illegalCommand 0 s) := by
  rw [engineStep, h]

/-- Settles O7: STATUS and ERRINFO are `raiseErr`'s for code 8 at position 0, and 0 is a reserved OP. -/
theorem illegalCommandCompletes : Obligations.IllegalCommandCompletes :=
  ⟨fun _ _ h => engineStep_of_illegal h, ⟨.reservedOp, by decide⟩, fun _ hb => hostWrite_cmd_of_idle 0 hb⟩

/-- The engine's turn answers, with a command in flight or without (20_memory R73). -/
theorem engineTurn_answers (s : State) : Answers (engineTurn s) := by
  rcases engineTurn_cases s with ⟨-, h⟩ | ⟨-, h⟩
  · rw [h]
    exact engineStep_answers s
  · exact ⟨s, h⟩

/-- Every event of the environment is answered. -/
theorem takeInput_answers (e : Input) (s : State) : Answers (takeInput e s) := by
  cases e with
  | read off width => exact ⟨hostRead off width s, rfl⟩
  | write off width v => exact ⟨hostWrite off width v s, rfl⟩
  | reset => exact ⟨resetRegisters s, rfl⟩
  | engine => exact engineTurn_answers s

/-- Settles O11, by whose turn it is. -/
theorem stepAlwaysAnswers : Obligations.StepAlwaysAnswers := by
  intro s
  rcases step_cases s with ⟨-, h⟩ | ⟨e, rest, -, h⟩ <;> rw [h]
  · exact engineTurn_answers s
  · exact takeInput_answers e _

end Sys2Proof.Machine
end

section
/-!
Bit strings by position (00_scope R13, R14): the bits and the value of a run of bits, and of a string put together from
numbers of one width.
-/

namespace Sys2Proof.Machine

/-- Bit k of `bits_N(v)` is bit N-1-k of the number (R13). -/
theorem getElem?_bitsN {n k : Nat} (v : Nat) (h : k < n) : (bitsN n v)[k]? = some (v.testBit (n - 1 - k)) := by
  induction n generalizing k with
  | zero => omega
  | succ n ih =>
    cases k with
    | zero => simp [bitsN]
    | succ k =>
      rw [bitsN, List.getElem?_cons_succ, ih (by omega)]
      congr 2
      omega

/-- The leading bits of a bit string are the high part of its value. -/
theorem val_take (s : Bits) (k : Nat) : val (s.take k) = val s >>> (s.length - k) := by
  have h := val_take_bitsN (m := k) (val_lt s)
  rwa [bitsN_val] at h

/-- The value of `w` bits of a bit string, from bit `a` on. -/
theorem val_take_drop {s : Bits} {a w : Nat} (h : a + w ≤ s.length) :
    val ((s.drop a).take w) = (val s >>> (s.length - (a + w))) % 2 ^ w := by
  have hw : (s.take (a + w)).length - a = w := by
    rw [List.length_take, Nat.min_eq_left h, Nat.add_sub_cancel_left]
  have hd : (s.drop a).take w = (s.take (a + w)).drop a := by rw [List.drop_take, Nat.add_sub_cancel_left]
  rw [hd, val_drop, val_take, hw]

theorem length_flatMap_bitsN {α : Type} (w : Nat) (f : α → Nat) (l : List α) :
    (l.flatMap fun x => bitsN w (f x)).length = w * l.length := by
  simp [List.length_flatMap, Nat.mul_comm]

/-- Bit k of a string of w-bit numbers is bit w-1 - (k mod w) of number k div w. -/
theorem getElem?_flatMap_bitsN {α : Type} {w : Nat} (f : α → Nat) (d : α) {l : List α} {k : Nat}
    (h : k < w * l.length) :
    (l.flatMap fun x => bitsN w (f x))[k]? = some ((f (l.getD (k / w) d)).testBit (w - 1 - k % w)) := by
  induction l generalizing k with
  | nil => simp at h
  | cons x l ih =>
    rw [List.length_cons, Nat.mul_succ] at h
    rw [List.flatMap_cons]
    rcases Nat.lt_or_ge k w with hk | hk
    · rw [List.getElem?_append_left (by rwa [bitsN_length]), getElem?_bitsN _ hk, Nat.div_eq_of_lt hk,
        Nat.mod_eq_of_lt hk, List.getD_cons_zero]
    · have hw : 0 < w := Nat.pos_of_ne_zero (by rintro rfl; omega)
      rw [List.getElem?_append_right (by rwa [bitsN_length]), bitsN_length, ih (by omega), Nat.mod_eq_sub_mod hk,
        Nat.div_eq_sub_div hw hk, List.getD_cons_succ]

/-- A string of w-bit numbers, read as a number: they are its digits in base 2^w, the first one the highest. -/
theorem val_flatMap_bitsN {α : Type} {w : Nat} (f : α → Nat) (d : α) {l : List α} (hf : ∀ x ∈ l, f x < 2 ^ w) :
    val (l.flatMap fun x => bitsN w (f x)) =
      ∑ k ∈ Finset.range l.length, f (l.getD k d) * 2 ^ (w * (l.length - 1 - k)) := by
  induction l with
  | nil => rfl
  | cons x l ih =>
    obtain ⟨hx, hl⟩ := List.forall_mem_cons.1 hf
    have hexp : ∀ k, l.length + 1 - 1 - (k + 1) = l.length - 1 - k := by omega
    rw [List.flatMap_cons, val_append, ih hl, length_flatMap_bitsN, val_bitsN, Nat.mod_eq_of_lt hx, List.length_cons,
      Finset.sum_range_succ', Nat.add_comm]
    congr 1
    exact Finset.sum_congr rfl fun k _ => by rw [List.getD_cons_succ, hexp]

/-- Bit k of the entropy bit string is bit 7 - (k mod 8) of byte k div 8 (40_datapath R121). -/
theorem getElem?_bytesToBits {b : Bytes} {k : Nat} (h : k < 8 * b.length) :
    (bytesToBits b)[k]? = some ((b.getD (k / 8) 0).getLsbD (7 - k % 8)) :=
  getElem?_flatMap_bitsN BitVec.toNat 0 h

/-- Bit k of the string of the indices is bit 10 - (k mod 11) of index k div 11 (40_datapath R128). -/
theorem getElem?_indexBits {ix : List Nat} {k : Nat} (h : k < 11 * ix.length) :
    (indexBits ix)[k]? = some ((ix.getD (k / 11) 0).testBit (10 - k % 11)) :=
  getElem?_flatMap_bitsN id 0 h

/-- The entropy bit string as a number, `Eint`, is the big-endian sum of the bytes (40_datapath R126). -/
theorem val_bytesToBits_eq_sum (b : Bytes) : val (bytesToBits b) =
    ∑ k ∈ Finset.range b.length, (b.getD k 0).toNat * 2 ^ (8 * (b.length - 1 - k)) :=
  val_flatMap_bitsN BitVec.toNat 0 fun x _ => x.isLt

/-- The string of 11-bit indices as a number, `T` of the split (40_datapath R129). -/
theorem val_indexBits_eq_sum {ix : List Nat} (h : ∀ i ∈ ix, i < 2048) : val (indexBits ix) =
    ∑ i ∈ Finset.range ix.length, ix.getD i 0 * 2 ^ (11 * (ix.length - 1 - i)) :=
  val_flatMap_bitsN id 0 h

/-- Settles O21. -/
theorem entropyBitOrder : Obligations.EntropyBitOrder :=
  fun ent => ⟨bytesToBits_length ent, fun _ => getElem?_bytesToBits⟩

/-- Byte k of a bit string is the value of its bits 8k to 8k+7 (40_datapath R122). -/
theorem getElem?_bitsToBytes {e : Bits} {len k : Nat} (he : e.length = 8 * len) (hk : k < len) :
    (bitsToBytes e)[k]? = some (BitVec.ofNat 8 (val ((e.drop (8 * k)).take 8))) := by
  have hlen : e.length / 8 = len := by omega
  have hk' : k < (groups 8 len e).length := by rwa [groups_length]
  rw [bitsToBytes, hlen, List.getElem?_map, List.getElem?_eq_getElem hk', groups_getElem]
  rfl

theorem bitsToBytes_length (e : Bits) : (bitsToBytes e).length = e.length / 8 := by
  rw [bitsToBytes, List.length_map, groups_length]

/-- The first byte of a bit string is its first eight bits. -/
theorem bitsToBytes_append {g : Bits} (hg : g.length = 8) (e : Bits) :
    bitsToBytes (g ++ e) = BitVec.ofNat 8 (val g) :: bitsToBytes e := by
  have hlen : (g ++ e).length / 8 = e.length / 8 + 1 := by
    rw [List.length_append, hg]
    omega
  rw [bitsToBytes, hlen, groups, List.take_left' hg, List.drop_left' hg, List.map_cons, bitsToBytes]

/-- Bytes written as bits and read back are the same bytes (40_datapath R122). -/
theorem bitsToBytes_bytesToBits (b : Bytes) : bitsToBytes (bytesToBits b) = b := by
  induction b with
  | nil => rfl
  | cons x b ih =>
    rw [bytesToBits_cons, bitsToBytes_append (bitsN_length 8 _), ih, val_bitsN, Nat.mod_eq_of_lt x.isLt,
      BitVec.ofNat_toNat, BitVec.setWidth_eq]

/-- A whole number of bytes of bits, read as bytes and written back, is the same bit string. -/
theorem bytesToBits_bitsToBytes {e : Bits} {len : Nat} (he : e.length = 8 * len) : bytesToBits (bitsToBytes e) = e := by
  induction len generalizing e with
  | zero =>
    obtain rfl := List.length_eq_zero_iff.1 he
    rfl
  | succ len ih =>
    have htake : (e.take 8).length = 8 := by
      rw [List.length_take]
      omega
    have hdrop : (e.drop 8).length = 8 * len := by
      rw [List.length_drop]
      omega
    have hval : (BitVec.ofNat 8 (val (e.take 8))).toNat = val (e.take 8) := by
      rw [BitVec.toNat_ofNat, Nat.mod_eq_of_lt ((val_lt (e.take 8)).trans_eq (by rw [htake]))]
    have hbits := bitsN_val (e.take 8)
    rw [htake] at hbits
    conv_lhs => rw [← List.take_append_drop 8 e]
    rw [bitsToBytes_append htake, bytesToBits_cons, ih hdrop, hval, hbits, List.take_append_drop]

/-- Settles O22. -/
theorem bitsToBytesInverse : Obligations.BitsToBytesInverse := by
  refine ⟨fun e len he => ⟨?_, fun k hk => getElem?_bitsToBytes he hk⟩, bitsToBytes_bytesToBits⟩
  rw [bitsToBytes_length, he, Nat.mul_div_cancel_left _ (by decide)]

end Sys2Proof.Machine
end

section
/-!
The datapath in integer form and bit by bit (40_datapath R120 to R134).
-/

namespace Sys2Proof.Machine

/-- In the row of a supported count, the entropy and the checksum fill the n indices (R120, R130). -/
theorem supportedWords_bits {n : Nat} (h : supportedWords n = true) :
    11 * n - csOfWords n = 8 * bytesOfWords n ∧ 11 * n = 8 * bytesOfWords n + csOfWords n := by
  rcases supportedWords_cases h with ⟨rfl, -, -⟩ | ⟨rfl, -, -⟩ | ⟨rfl, -, -⟩ | ⟨rfl, -, -⟩ | ⟨rfl, -, -⟩ <;> decide

/-- Settles O20: the rows of R120 read from either end. -/
theorem lengthsAgree : Obligations.LengthsAgree := by
  refine ⟨by decide, fun n hn => ⟨?_, fun ent hl => ?_⟩⟩
  · rw [(supportedWords_bits hn).1, Nat.mul_mod_right]
  · obtain ⟨-, hcs, hw, -⟩ := supportedWords_row hn
    have hl' : ent.length = bytesOfWords n := hl
    exact ⟨(congrArg wordsOfBytes hl').trans hw, (congrArg csOfBytes hl').trans hcs⟩

/-- The checksum bits as a number (R123). -/
theorem val_checksum (b : Bytes) (nBits : Nat) : val (checksum b nBits) = cval b nBits :=
  val_take_bitsN (hashByte b).isLt

/-- Bit k of the checksum is bit 7-k of the first digest byte (R123). -/
theorem getElem?_checksum (b : Bytes) {nBits k : Nat} (h8 : nBits ≤ 8) (hk : k < nBits) :
    (checksum b nBits)[k]? = some ((hashByte b).getLsbD (7 - k)) := by
  rw [checksum, List.getElem?_take, if_pos hk, getElem?_bitsN _ (hk.trans_le h8)]
  rfl

/-- Settles O23. -/
theorem checksumBits : Obligations.ChecksumBits :=
  fun b nBits _ h8 => ⟨checksum_length b h8, fun _ hk => getElem?_checksum b h8 hk, val_checksum b nBits, rfl,
    cval_lt b nBits h8⟩

/-- The spliced string as a number, `T = Eint * 2^CS + c` (R126). -/
theorem val_splice {ent : Bytes} (h8 : csOfBytes ent.length ≤ 8) : val (splice ent) =
    val (bytesToBits ent) * 2 ^ csOfBytes ent.length + cval ent (csOfBytes ent.length) := by
  rw [splice, val_append, checksum_length _ h8, val_checksum]

/-- Chunk i is the value of bits 11i to 11i+10 of the spliced string (R125). -/
theorem getElem?_encodeCore_chunks {ent : Bytes} {i : Nat} (hi : i < wordsOfBytes ent.length) :
    (encodeCore ent).chunks[i]? = some (val (((splice ent).drop (11 * i)).take 11)) := by
  have hi' : i < (groups 11 (wordsOfBytes ent.length) (splice ent)).length := by rwa [groups_length]
  rw [encodeCore, List.getElem?_map, List.getElem?_eq_getElem hi', groups_getElem]
  rfl

/-- Settles O24: a chunk is a run of eleven bits of `T`. -/
theorem spliceIntegerForm : Obligations.SpliceIntegerForm := by
  intro ent h i hi
  obtain ⟨-, -, -, -, h8⟩ := supportedBytes_row h
  have hlen := splice_length h
  have hpos : (splice ent).length - (11 * i + 11) = 11 * (wordsOfBytes ent.length - 1 - i) := by omega
  rw [getElem?_encodeCore_chunks hi, val_take_drop (by omega), hpos, val_splice h8, val_bytesToBits_eq_sum]
  exact congrArg some (Nat.and_two_pow_sub_one_eq_mod _ 11).symm

/-- Entropy bit k stands in its chunk (R127). -/
theorem testBit_encodeCore_chunk {ent : Bytes} (h : supportedBytes ent.length = true) {k : Nat}
    (hk : k < 8 * ent.length) :
    ((encodeCore ent).chunks.getD (k / 11) 0).testBit (10 - k % 11) = (ent.getD (k / 8) 0).getLsbD (7 - k % 8) := by
  have hent : (splice ent)[k]? = some ((ent.getD (k / 8) 0).getLsbD (7 - k % 8)) := by
    rw [splice, List.getElem?_append_left (by rwa [bytesToBits_length]), getElem?_bytesToBits hk]
  have hlen : k < 11 * (encodeCore ent).chunks.length := by
    obtain ⟨hk', -⟩ := List.getElem?_eq_some_iff.1 hent
    rwa [encodeCore_chunks_length, ← splice_length h]
  rw [← indexBits_chunks h, getElem?_indexBits hlen] at hent
  exact Option.some.inj hent

/-- The last chunk is the last 11 - CS entropy bits followed by the checksum (R127). -/
theorem encodeCore_last_chunk {ent : Bytes} (h : supportedBytes ent.length = true) :
    (encodeCore ent).chunks.getD (wordsOfBytes ent.length - 1) 0 =
      (val ((bytesToBits ent).drop (8 * ent.length - (11 - csOfBytes ent.length))) <<< csOfBytes ent.length) |||
        cval ent (csOfBytes ent.length) := by
  obtain ⟨hn, -, -, -, h8⟩ := supportedBytes_row h
  obtain ⟨-, -, -, hpos, -⟩ := supportedWords_row hn
  have hbits := splice_length h
  have hlen : (splice ent).length = 8 * ent.length + csOfBytes ent.length := by
    rw [splice, List.length_append, bytesToBits_length, checksum_length _ h8]
  have hlt : (encodeCore ent).chunks.getD (wordsOfBytes ent.length - 1) 0 < 2 ^ 11 := encodeCore_chunk_getD_lt ent _
  have hlast := val_indexBits_mod (encodeCore ent).chunks (cs := 11) le_rfl
  rw [indexBits_chunks h, encodeCore_chunks_length, Nat.mod_eq_of_lt hlt] at hlast
  have heleven : 11 = (splice ent).length - (8 * ent.length - (11 - csOfBytes ent.length)) := by omega
  rw [← hlast, heleven, ← val_drop, ← heleven, splice, List.drop_append_of_le_length (by simp), val_append,
    checksum_length _ h8, val_checksum, ← Nat.shiftLeft_eq, Nat.shiftLeft_add_eq_or_of_lt (cval_lt ent _ h8)]

/-- Settles O25. -/
theorem bitPlacement : Obligations.BitPlacement :=
  fun _ h => ⟨splice_length h, fun _ => testBit_encodeCore_chunk h, encodeCore_last_chunk h⟩

/-- The entropy part of the string of the indices, as a number: that of the whole string without its CS low bits (R129). -/
theorem val_indexBits_take {ix : List Nat} (hn : supportedWords ix.length = true) :
    val ((indexBits ix).take (8 * bytesOfWords ix.length)) = val (indexBits ix) >>> csOfWords ix.length := by
  obtain ⟨-, hbits⟩ := supportedWords_bits hn
  rw [val_take, indexBits_length, hbits, Nat.add_sub_cancel_left]

theorem split_ent {ix : List Nat} (hn : supportedWords ix.length = true) :
    (split ix).ent = bitsToBytes ((indexBits ix).take (8 * bytesOfWords ix.length)) := by
  rw [split, (supportedWords_bits hn).1]

theorem split_c_eq_val_drop {ix : List Nat} (hn : supportedWords ix.length = true) :
    (split ix).c = val ((indexBits ix).drop (8 * bytesOfWords ix.length)) := by
  rw [split, (supportedWords_bits hn).1]

theorem length_indexBits_take {ix : List Nat} (hn : supportedWords ix.length = true) :
    ((indexBits ix).take (8 * bytesOfWords ix.length)).length = 8 * bytesOfWords ix.length := by
  obtain ⟨-, hbits⟩ := supportedWords_bits hn
  rw [List.length_take, indexBits_length]
  omega

/-- Byte k of the reconstructed entropy, from the string of the indices as a number (R129). -/
theorem toNat_getD_split_ent {ix : List Nat} (hn : supportedWords ix.length = true) {k : Nat}
    (hk : k < bytesOfWords ix.length) : ((split ix).ent.getD k 0).toNat =
      ((val (indexBits ix) >>> csOfWords ix.length) >>> (8 * (bytesOfWords ix.length - 1 - k))) % 2 ^ 8 := by
  have hlen := length_indexBits_take hn
  have hpos : 8 * bytesOfWords ix.length - (8 * k + 8) = 8 * (bytesOfWords ix.length - 1 - k) := by omega
  rw [split_ent hn, List.getD, getElem?_bitsToBytes hlen hk, Option.getD_some, BitVec.toNat_ofNat,
    val_take_drop (by omega), hlen, hpos, val_indexBits_take hn, Nat.mod_mod]

/-- Settles O26: the split reads the string of the indices as the number `T`. -/
theorem splitIntegerForm : Obligations.SplitIntegerForm := by
  rintro ix n cs len t rfl hn hx rfl rfl rfl
  rw [← val_indexBits_eq_sum hx, Nat.and_two_pow_sub_one_eq_mod, Nat.and_two_pow_sub_one_eq_mod]
  obtain ⟨-, -, -, -, -, h8, -⟩ := supportedWords_row hn
  refine ⟨?_, split_c hn, split_ent_length ix, fun k hk => ?_⟩
  · rw [split_c hn, val_indexBits_mod ix (by omega)]
  · rw [toNat_getD_split_ent hn hk]
    exact (Nat.and_two_pow_sub_one_eq_mod _ 8).symm

/-- The split of an encoding gives the entropy and the checksum back (R133). -/
theorem split_encodeCore_chunks {ent : Bytes} (h : supportedBytes ent.length = true) :
    split (encodeCore ent).chunks = ⟨ent, cval ent (csOfBytes ent.length)⟩ := by
  obtain ⟨hn, -, hl, -, -⟩ := supportedBytes_row h
  have hcut : 11 * wordsOfBytes ent.length - csOfWords (wordsOfBytes ent.length) = (bytesToBits ent).length := by
    rw [(supportedWords_bits hn).1, hl, bytesToBits_length]
  rw [split, encodeCore_chunks_length, indexBits_chunks h, hcut, splice, List.take_left, List.drop_left,
    bitsToBytes_bytesToBits, val_checksum]

/-- Settles O27. -/
theorem splitOfSplice : Obligations.SplitOfSplice := by
  intro ent h
  obtain ⟨-, hcs, -, -, -⟩ := supportedBytes_row h
  rw [split_encodeCore_chunks h, ← hcs]
  exact ⟨rfl, rfl, rfl⟩

/-- Flipping bit b of index i flips one bit of the string of the indices (R134). -/
theorem indexBits_set_xor {ix : List Nat} {i b : Nat} (hi : i < ix.length) (hb : b < 11) :
    indexBits (ix.set i (ix.getD i 0 ^^^ 2 ^ b)) = (indexBits ix).modify (11 * i + (10 - b)) not := by
  apply List.ext_getElem?
  intro k
  rw [List.getElem?_modify]
  rcases Nat.lt_or_ge k (11 * ix.length) with hk | hk
  · have hpos : 11 * i + (10 - b) = k ↔ i = k / 11 ∧ b = 10 - k % 11 := by omega
    rw [getElem?_indexBits hk, getElem?_indexBits (by rwa [List.length_set]), Option.map_eq_map, Option.map_some]
    simp only [hpos]
    by_cases hik : i = k / 11
    · subst hik
      by_cases hbk : b = 10 - k % 11 <;> simp [hbk, hi, Nat.testBit_xor]
    · simp [hik, List.getD, List.getElem?_set_ne]
  · simp [hk]

/-- Flipping a bit of a string changes it. -/
theorem modify_not_ne {s : Bits} {p : Nat} (hp : p < s.length) : s.modify p not ≠ s := by
  intro h
  have hbit := congrArg (·[p]?) h
  simp [hp] at hbit

/-- Flipping a bit of the entropy part of the indices changes the entropy (R134). -/
theorem split_ent_ne_of_flip {ix ix' : List Nat} (hn : supportedWords ix.length = true)
    (hl : ix'.length = ix.length) {p : Nat} (hbits : indexBits ix' = (indexBits ix).modify p not)
    (hp : p < 8 * bytesOfWords ix.length) :
    (split ix').ent ≠ (split ix).ent := by
  have hlen := length_indexBits_take hn
  rw [split_ent hn, split_ent (hl ▸ hn), hl, hbits, List.take_modify]
  intro h
  have hbytes := congrArg bytesToBits h
  rw [bytesToBits_bitsToBytes hlen, bytesToBits_bitsToBytes (by rwa [List.length_modify])] at hbytes
  exact modify_not_ne (by rwa [hlen]) hbytes

/-- Flipping a bit of the checksum part of the indices changes the received checksum and not the entropy (R134). -/
theorem split_of_checksum_flip {ix ix' : List Nat} (hn : supportedWords ix.length = true)
    (hl : ix'.length = ix.length) {p : Nat} (hbits : indexBits ix' = (indexBits ix).modify p not)
    (hp : 8 * bytesOfWords ix.length ≤ p) (hlt : p < 11 * ix.length) :
    (split ix').ent = (split ix).ent ∧ (split ix').c ≠ (split ix).c := by
  rw [split_ent hn, split_ent (hl ▸ hn), split_c_eq_val_drop hn, split_c_eq_val_drop (hl ▸ hn), hl, hbits]
  refine ⟨?_, ?_⟩
  · rw [List.take_modify, List.modify_eq_self]
    rwa [length_indexBits_take hn]
  · rw [List.drop_modify_of_ge _ _ _ _ hp]
    intro h
    refine modify_not_ne ?_ (eq_of_val (List.length_modify ..) h)
    rw [List.length_drop, indexBits_length]
    omega

/-- Settles O28: a flipped bit stands in the checksum part exactly when it is a low CS bit of the last index. -/
theorem checksumSensitivity : Obligations.ChecksumSensitivity := by
  rintro ent n cs h rfl rfl i hi b hb ix rfl
  obtain ⟨hn, hcs, -, -, h8⟩ := supportedBytes_row h
  obtain ⟨-, hbits⟩ := supportedWords_bits hn
  have hlen := encodeCore_chunks_length ent
  have hflip := indexBits_set_xor (ix := (encodeCore ent).chunks) (by rwa [hlen]) hb
  have hsplit := split_encodeCore_chunks h
  rw [← hlen] at hn
  refine ⟨fun hlow => ?_, fun hhigh => ?_⟩
  · obtain ⟨he, hc⟩ := split_of_checksum_flip hn (List.length_set ..) hflip (by rw [hlen]; omega) (by rw [hlen]; omega)
    rw [hsplit] at he hc
    refine ⟨he, hc, fun s => if_pos ⟨rfl, ?_⟩⟩
    rwa [he, ← hcs]
  · have he := split_ent_ne_of_flip hn (List.length_set ..) hflip (by rw [hlen]; omega)
    rwa [hsplit] at he

end Sys2Proof.Machine
end

section
/-!
Looking words up in the attached wordlist (40_datapath R136 to R141).
-/

namespace Sys2Proof.Machine

/-- The index of a word is the first one below 2048 whose word is the folded word (R136). -/
theorem indexOf_eq_some_iff (wl : Wordlist) (w : Bytes) (i : Nat) : indexOf wl w = some i ↔
    i < 2048 ∧ wl.words[i]? = some (fold wl.tag w) ∧ ∀ j < i, wl.words[j]? ≠ some (fold wl.tag w) := by
  constructor
  · intro h
    obtain ⟨hi, hw⟩ := indexOf_some h
    refine ⟨hi, hw, fun j hj hwj => ?_⟩
    rw [indexOf, List.findIdx?_eq_some_iff_getElem] at h
    obtain ⟨hlt, -, hfirst⟩ := h
    refine hfirst j hj ?_
    rw [List.getElem_take, beq_iff_eq]
    exact (List.getElem_eq_iff _).2 hwj
  · rintro ⟨hi, hw, hfirst⟩
    obtain ⟨hlt, hwi⟩ := List.getElem?_eq_some_iff.1 hw
    rw [indexOf, List.findIdx?_eq_some_iff_getElem]
    refine ⟨by rw [List.length_take]; omega, by rw [List.getElem_take, hwi, beq_self_eq_true], fun j hj hwj => ?_⟩
    rw [List.getElem_take, beq_iff_eq] at hwj
    exact hfirst j hj ((List.getElem_eq_iff _).1 hwj)

/-- A word has no index exactly when no word below 2048 is the folded word (R136). -/
theorem indexOf_eq_none_iff (wl : Wordlist) (w : Bytes) :
    indexOf wl w = none ↔ ∀ i < 2048, wl.words[i]? ≠ some (fold wl.tag w) := by
  rw [indexOf, List.findIdx?_eq_none_iff]
  constructor
  · intro h i hi hw
    have hmem : fold wl.tag w ∈ wl.words.take 2048 :=
      List.mem_iff_getElem?.2 ⟨i, by rw [List.getElem?_take, if_pos hi, hw]⟩
    simpa using h _ hmem
  · intro h x hx
    obtain ⟨i, hi⟩ := List.mem_iff_getElem?.1 hx
    rw [beq_eq_false_iff_ne]
    rintro rfl
    rw [List.getElem?_take] at hi
    split at hi
    · exact h i ‹_› hi
    · cases hi

/-- Settles O29. -/
theorem indexLookup : Obligations.IndexLookup := by
  refine fun wl w => ⟨indexOf_eq_some_iff wl w, indexOf_eq_none_iff wl w, fun hv i j hi hj => ?_⟩
  obtain ⟨-, -, hnodup, -, -⟩ := (wlValid_iff wl).1 hv
  obtain ⟨hlt, -⟩ := List.getElem?_eq_some_iff.1 hi
  exact (List.getElem?_inj hlt hnodup).1 (hi.trans hj.symm)

/-- The index of a word depends on its folding only. -/
theorem indexOf_congr {wl : Wordlist} {v w : Bytes} (h : fold wl.tag v = fold wl.tag w) :
    indexOf wl v = indexOf wl w := by
  rw [indexOf, indexOf, h]

/-- The two answers of `lookupAll`, with positions from 1 (R139). -/
theorem lookupAll_cases (wl : Wordlist) (ws : List Bytes) :
    (∃ ix, lookupAll wl ws = .ok ix ∧ ws.map (indexOf wl) = ix.map some) ∨
    (∃ p < ws.length, lookupAll wl ws = .unknownWord (p + 1) ∧ indexOf wl (ws.getD p []) = none ∧
      ∀ q < p, indexOf wl (ws.getD q []) ≠ none) := by
  rcases lookupFrom_cases wl 1 ws with h | ⟨p, h, hp, hn, hq⟩
  · exact .inl h
  · have hget : ∀ q < ws.length, (ws.map (indexOf wl))[q]? = some (indexOf wl (ws.getD q [])) := fun q hq => by
      rw [List.getElem?_map, List.getD_eq_getElem _ _ hq, List.getElem?_eq_getElem hq, Option.map_some]
    refine .inr ⟨p, hp, by rw [lookupAll, h, Nat.add_comm], ?_, fun q hqp hnone => ?_⟩
    · exact Option.some.inj ((hget p hp).symm.trans hn)
    · exact hq q hqp ((hget q (hqp.trans hp)).trans (congrArg some hnone))

theorem indexOf_ne_none_of_map {wl : Wordlist} {ws : List Bytes} {ix : List Nat}
    (h : ws.map (indexOf wl) = ix.map some) {q : Nat} (hq : q < ws.length) : indexOf wl (ws.getD q []) ≠ none := by
  have hmem : indexOf wl (ws.getD q []) ∈ ix.map some := by
    rw [← h, List.getD_eq_getElem _ _ hq]
    exact List.mem_map_of_mem (List.getElem_mem _)
  obtain ⟨i, -, hi⟩ := List.mem_map.1 hmem
  rw [← hi]
  exact Option.some_ne_none i

/-- Settles O31: the two answers exclude each other, and each determines its data. -/
theorem lookupAll_spec : Obligations.LookupAll := by
  intro wl ws
  rcases lookupAll_cases wl ws with ⟨ix, hok, hmap⟩ | ⟨p, hp, hunk, hnone, hbefore⟩
  · rw [hok]
    refine ⟨fun ix' => ?_, fun p => ⟨nofun, ?_⟩⟩
    · rw [hmap, Lookup.ok.injEq, List.map_inj_right fun _ _ => Option.some.inj]
    · rintro ⟨h1, hlen, hnone, -⟩
      exact absurd hnone (indexOf_ne_none_of_map hmap (by omega))
  · rw [hunk]
    refine ⟨fun ix => ⟨nofun, fun hmap => absurd hnone (indexOf_ne_none_of_map hmap hp)⟩, fun p' => ?_⟩
    rw [Lookup.unknownWord.injEq]
    constructor
    · rintro rfl
      exact ⟨by omega, hp, hnone, fun q hq => hbefore q (by omega)⟩
    · rintro ⟨h1, -, hnone', hbefore'⟩
      rcases Nat.lt_trichotomy (p + 1) p' with hlt | heq | hgt
      · exact absurd hnone (hbefore' p hlt)
      · exact heq
      · exact absurd hnone' (hbefore (p' - 1) (by omega))

end Sys2Proof.Machine
end

section
/-!
Case folding (40_datapath R137).
-/

namespace Sys2Proof.Machine

theorem isAscii_iff (b : Byte) : isAscii b = true ↔ b.toNat < 0x80 := decide_eq_true_iff

theorem toNat_asciiLower (b : Byte) : (asciiLower b).toNat =
    if 0x41 ≤ b.toNat ∧ b.toNat ≤ 0x5A then b.toNat + 0x20 else b.toNat := by
  unfold asciiLower
  split
  · exact (BitVec.toNat_add ..).trans (Nat.mod_eq_of_lt (a := b.toNat + 0x20) (by omega))
  · rfl

@[simp] theorem asciiLower_asciiLower (b : Byte) : asciiLower (asciiLower b) = asciiLower b := by
  apply BitVec.eq_of_toNat_eq
  rw [toNat_asciiLower, toNat_asciiLower]
  split_ifs <;> omega

@[simp] theorem isAscii_asciiLower (b : Byte) : isAscii (asciiLower b) = isAscii b := by
  rw [Bool.eq_iff_iff, isAscii_iff, isAscii_iff, toNat_asciiLower]
  split_ifs <;> omega

/-- Lowering the ASCII letters of a word twice is lowering them once. -/
theorem map_asciiLower_map (w : Bytes) : (w.map asciiLower).map asciiLower = w.map asciiLower := by
  simp

theorem asciiLower_of_not_ascii {b : Byte} (h : 0x80 ≤ b.toNat) : asciiLower b = b :=
  if_neg (by omega)

/-- A pass over a word that starts with ASCII bytes lowers these. -/
theorem foldRuns_ascii_append (img : Nat → Bytes) {a : Bytes} (ha : ∀ b ∈ a, b.toNat < 0x80) (k : Nat) (r : Bool) :
    ∃ k' r', ∀ rest, foldRuns img k r (a ++ rest) = a.map asciiLower ++ foldRuns img k' r' rest := by
  induction a generalizing k r with
  | nil => exact ⟨k, r, fun _ => rfl⟩
  | cons b a ih =>
    obtain ⟨hb, ha⟩ := List.forall_mem_cons.1 ha
    obtain ⟨k', r', h⟩ := ih ha (if r then k + 1 else k) false
    refine ⟨k', r', fun rest => ?_⟩
    rw [List.cons_append, foldRuns, if_pos ((isAscii_iff b).2 hb), h]
    rfl

/-- A pass over a word that starts with non-ASCII bytes puts some byte string in their place. -/
theorem foldRuns_nonAscii_append (img : Nat → Bytes) {x : Bytes} (hx : ∀ b ∈ x, 0x80 ≤ b.toNat) (k : Nat) (r : Bool) :
    ∃ out k' r', ∀ rest, foldRuns img k r (x ++ rest) = out ++ foldRuns img k' r' rest := by
  induction x generalizing r with
  | nil => exact ⟨[], k, r, fun _ => rfl⟩
  | cons b x ih =>
    obtain ⟨hb, hx⟩ := List.forall_mem_cons.1 hx
    have hb' : ¬ isAscii b = true := by rw [isAscii_iff]; omega
    obtain ⟨out, k', r', h⟩ := ih hx true
    cases r with
    | true => exact ⟨out, k', r', fun rest => by rw [List.cons_append, foldRuns, if_neg hb', if_pos rfl, h]⟩
    | false =>
      refine ⟨img k ++ out, k', r', fun rest => ?_⟩
      rw [List.cons_append, foldRuns, if_neg hb', if_neg Bool.false_ne_true, h, List.append_assoc]

/-- Stretches of ASCII and non-ASCII bytes, in pairs. -/
def IsStretches (ps : List (Bytes × Bytes)) : Prop :=
  ∀ p ∈ ps, (∀ b ∈ p.1, b.toNat < 0x80) ∧ ∀ b ∈ p.2, 0x80 ≤ b.toNat

/-- A word given in stretches of ASCII and non-ASCII bytes, with the byte strings `imgs` in place of the non-ASCII ones
and its ASCII bytes lowered. -/
def foldedAround (ps : List (Bytes × Bytes)) (imgs : List Bytes) (tail : Bytes) : Bytes :=
  (List.zipWith (fun p img => p.1.map asciiLower ++ img) ps imgs).flatten ++ tail.map asciiLower

/-- A pass of the folding (R137). -/
theorem foldRuns_mixed (img : Nat → Bytes) {ps : List (Bytes × Bytes)} {tail : Bytes}
    (hps : IsStretches ps) (ht : ∀ b ∈ tail, b.toNat < 0x80) (k : Nat) (r : Bool) :
    ∃ imgs : List Bytes, imgs.length = ps.length ∧
      foldRuns img k r (ps.flatMap (fun p => p.1 ++ p.2) ++ tail) = foldedAround ps imgs tail := by
  induction ps generalizing k r with
  | nil =>
    obtain ⟨k', r', h⟩ := foldRuns_ascii_append img ht k r
    have htail := h []
    rw [List.append_nil, foldRuns, List.append_nil] at htail
    exact ⟨[], rfl, htail⟩
  | cons p ps ih =>
    obtain ⟨⟨ha, hx⟩, hps⟩ := List.forall_mem_cons.1 hps
    obtain ⟨k1, r1, h1⟩ := foldRuns_ascii_append img ha k r
    obtain ⟨out, k2, r2, h2⟩ := foldRuns_nonAscii_append img hx k1 r1
    obtain ⟨imgs, hl, h⟩ := ih hps k2 r2
    refine ⟨out :: imgs, by rw [List.length_cons, List.length_cons, hl], ?_⟩
    rw [List.flatMap_cons, List.append_assoc, List.append_assoc, h1, h2, h]
    simp [foldedAround]

/-- Lowering the ASCII letters leaves the non-ASCII stretches. -/
theorem map_asciiLower_mixed {ps : List (Bytes × Bytes)} {tail : Bytes} (hps : IsStretches ps) :
    (ps.flatMap (fun p => p.1 ++ p.2) ++ tail).map asciiLower = foldedAround ps (ps.map Prod.snd) tail := by
  have hp : ∀ p ∈ ps, (p.1 ++ p.2).map asciiLower = p.1.map asciiLower ++ p.2 := fun p hp => by
    rw [List.map_append, List.map_congr_left fun b hb => asciiLower_of_not_ascii ((hps p hp).2 b hb), List.map_id']
  rw [foldedAround, List.zipWith_map_right, List.zipWith_self, List.map_append, List.map_flatMap, List.flatMap,
    List.map_congr_left hp]

/-- A pass does not see the case of ASCII letters. -/
theorem foldRuns_map_asciiLower (img : Nat → Bytes) (k : Nat) (r : Bool) (w : Bytes) :
    foldRuns img k r (w.map asciiLower) = foldRuns img k r w := by
  induction w generalizing k r with
  | nil => rfl
  | cons b w ih => simp [foldRuns, ih]

theorem foldPass_map_asciiLower (tag : LangTag) (w : Bytes) : foldPass tag (w.map asciiLower) = foldPass tag w := by
  rw [foldPass, foldPass, map_asciiLower_map, foldRuns_map_asciiLower]

/-- The two forms of a folding: a pass that a second one leaves, or the ASCII letters lowered (R137, log 5). -/
theorem fold_cases (tag : LangTag) (w : Bytes) :
    (foldPass tag (foldPass tag w) = foldPass tag w ∧ fold tag w = foldPass tag w) ∨
    (foldPass tag (foldPass tag w) ≠ foldPass tag w ∧ fold tag w = w.map asciiLower) := by
  by_cases h : foldPass tag (foldPass tag w) = foldPass tag w
  · exact .inl ⟨h, if_pos h⟩
  · exact .inr ⟨h, if_neg h⟩

/-- Folding does not see the case of ASCII letters (R137, log 5). -/
theorem fold_map_asciiLower (tag : LangTag) (w : Bytes) : fold tag (w.map asciiLower) = fold tag w := by
  rw [fold, fold, foldPass_map_asciiLower, map_asciiLower_map]

/-- Folding is idempotent (R137, log 5). -/
theorem fold_fold (tag : LangTag) (w : Bytes) : fold tag (fold tag w) = fold tag w := by
  rcases fold_cases tag w with ⟨hfix, h⟩ | ⟨-, h⟩
  · rw [h, fold, hfix, hfix, if_pos rfl]
  · rw [h, fold_map_asciiLower, h]

/-- A word of stretches folds around the images of its non-ASCII ones (R137). -/
theorem fold_mixed (tag : LangTag) {ps : List (Bytes × Bytes)} {tail : Bytes}
    (hps : IsStretches ps) (ht : ∀ b ∈ tail, b.toNat < 0x80) :
    ∃ imgs : List Bytes, imgs.length = ps.length ∧
      fold tag (ps.flatMap (fun p => p.1 ++ p.2) ++ tail) = foldedAround ps imgs tail := by
  rcases fold_cases tag (ps.flatMap (fun p => p.1 ++ p.2) ++ tail) with ⟨-, h⟩ | ⟨-, h⟩ <;> rw [h]
  · exact foldRuns_mixed _ hps ht 0 false
  · exact ⟨ps.map Prod.snd, List.length_map .., map_asciiLower_mixed hps⟩

/-- An ASCII word folds by its letters (R137). -/
theorem fold_ascii (tag : LangTag) {w : Bytes} (hw : ∀ b ∈ w, b.toNat < 0x80) : fold tag w = w.map asciiLower := by
  obtain ⟨imgs, hl, h⟩ := fold_mixed tag (ps := []) nofun hw
  simpa [foldedAround] using h

/-- Settles O30. -/
theorem caseFolding : Obligations.CaseFolding := by
  refine ⟨fun _ => rfl, fun tag _ => fold_ascii tag, fun tag _ _ => fold_mixed tag, fold_fold, fold_map_asciiLower,
    fun wl hv => ⟨?_, fun i hi w hw => ?_⟩⟩
  · obtain ⟨-, -, -, -, hfix⟩ := (wlValid_iff wl).1 hv
    exact hfix
  · have hfold : fold wl.tag w = fold wl.tag (wordAt wl i) := by
      rw [← fold_map_asciiLower, hw, fold_map_asciiLower]
    rw [indexOf_congr hfold, indexOf_wordAt hv hi]

/-- Settles O32: the empty word is its own folding, and no word of a valid list is empty. -/
theorem emptyWordUnknown : Obligations.EmptyWordUnknown := by
  intro wl hv
  obtain ⟨-, -, -, hfits, -⟩ := (wlValid_iff wl).1 hv
  rw [slotWord_replicate_zero, indexOf_eq_none_iff, fold_ascii wl.tag (w := []) nofun]
  intro i _ hi
  obtain ⟨hne, -⟩ := hfits _ (List.mem_iff_getElem?.2 ⟨i, hi⟩)
  exact hne rfl

end Sys2Proof.Machine
end

section
/-!
Commands under an invalid wordlist and under two valid ones (40_datapath R141, R142, 60_exceptions R227).
-/

namespace Sys2Proof.Machine

/-- What a valid wordlist is, with its words pairwise distinct by their numbers (R141). -/
theorem wlValid_iff_getElem (wl : Wordlist) : wlValid wl = true ↔
    wl.available = true ∧ wl.words.length = 2048 ∧
      (∀ (i j : Nat) (hi : i < wl.words.length) (hj : j < wl.words.length), wl.words[i] = wl.words[j] → i = j) ∧
      (∀ w ∈ wl.words, w ≠ [] ∧ (0x00 : Byte) ∉ w ∧ w.length ≤ 32) ∧ ∀ w ∈ wl.words, fold wl.tag w = w := by
  have hnodup : wl.words.Nodup ↔
      ∀ (i j : Nat) (hi : i < wl.words.length) (hj : j < wl.words.length), wl.words[i] = wl.words[j] → i = j := by
    rw [List.nodup_iff_injective_getElem]
    exact ⟨fun h i j hi hj hij => congrArg Fin.val (@h ⟨i, hi⟩ ⟨j, hj⟩ hij),
      fun h i j hij => Fin.ext (h i j i.isLt j.isLt hij)⟩
  rw [wlValid_iff, hnodup]

theorem execEncode_of_unsupported {len : Nat} (h : supportedBytes len = false) (s : State) :
    execEncode len s = .next (raiseErr .invalidEntropyLength 0 s) := if_pos h

theorem execEncodeRandom_of_unsupported {n : Nat} (h : supportedWords n = false) (s : State) :
    execEncodeRandom n s = .next (raiseErr .invalidWordCount 0 s) := if_pos h

theorem execDecode_of_unsupported {n : Nat} (h : supportedWords n = false) (verify : Bool) (s : State) :
    execDecode n verify s = .next (raiseErr .invalidWordCount 0 s) := if_pos h

theorem execEncode_of_invalid {len : Nat} {s : State} (h : supportedBytes len = true) (hv : wlValid s.wl = false) :
    execEncode len s = .next (raiseErr .wordlistUnavailable 0 s) := by
  rw [execEncode, if_neg (by simp [h]), if_pos hv]

theorem execEncodeRandom_of_invalid {n : Nat} {s : State} (h : supportedWords n = true) (hv : wlValid s.wl = false) :
    execEncodeRandom n s = .next (raiseErr .wordlistUnavailable 0 s) := by
  rw [execEncodeRandom, if_neg (by simp [h]), if_pos hv]

theorem execDecode_of_invalid {n : Nat} {s : State} (h : supportedWords n = true) (hv : wlValid s.wl = false)
    (verify : Bool) : execDecode n verify s = .next (raiseErr .wordlistUnavailable 0 s) := by
  rw [execDecode, if_neg (by simp [h]), if_pos hv]

/-- Settles O36: each command checks its length, then the wordlist, and both errors write STATUS and ERRINFO alone. -/
theorem wordlistUnavailable : Obligations.WordlistUnavailable :=
  ⟨wlValid_iff_getElem, fun s hv =>
    ⟨fun _ h => execEncode_of_invalid h hv,
      fun _ h => ⟨execEncodeRandom_of_invalid h hv, execDecode_of_invalid h hv⟩,
      fun _ h => execEncode_of_unsupported h s,
      fun _ h => ⟨execEncodeRandom_of_unsupported h s, fun verify => execDecode_of_unsupported h verify s⟩⟩⟩

/-- With a supported length and a valid wordlist ENCODE commits the encoding of `ENT[0..L-1]` (41_encode R160). -/
theorem execEncode_of_valid {len : Nat} {s : State} (h : supportedBytes len = true) (hv : wlValid s.wl = true) :
    execEncode len s = .next (complete (commit (entBytes s len) (wordsOfBytes len) (csOfWords (wordsOfBytes len))
      (cval (entBytes s len) (csOfBytes len)) (encodeCore (entBytes s len)).chunks s)) := by
  obtain ⟨-, hcs, -, h32, -⟩ := supportedBytes_row h
  rw [execEncode, if_neg (by simp [h]), if_neg (by simp [hv]), encodeEntropy_eq, entBytes_length s len h32, ← hcs]

/-- What ENCODE commits is a row (R127). -/
theorem isEncoding_entBytes {len : Nat} (h : supportedBytes len = true) (s : State) :
    IsEncoding (entBytes s len) (wordsOfBytes len) (cval (entBytes s len) (csOfBytes len))
      (encodeCore (entBytes s len)).chunks := by
  obtain ⟨-, -, -, h32, -⟩ := supportedBytes_row h
  have hl := entBytes_length s len h32
  have hrow := isEncoding_encodeCore (hl.symm ▸ h : supportedBytes (entBytes s len).length = true)
  rwa [hl] at hrow

/-- After the commit of a row an INDEX field below the count holds its index. -/
theorem IsEncoding.commit_index {ent : Bytes} {n c : Nat} {ix : List Nat} (hrow : IsEncoding ent n c ix) (s : State)
    {i : Nat} (hi : i < n) : (complete (commit ent n (csOfWords n) c ix s)).index i = ix.getD i 0 := by
  obtain ⟨-, -, -, -, h24, -, -⟩ := supportedWords_row hrow.supported
  rw [State.index_eq _ (by omega), hrow.commit_idx_toNat s (by omega), if_pos hi, Nat.mod_eq_of_lt (hrow.getD_lt i)]

/-- After the commit of a row under a valid wordlist a slot below the count holds the word of its index. -/
theorem IsEncoding.commit_wordAtSlot {ent : Bytes} {n c : Nat} {ix : List Nat} (hrow : IsEncoding ent n c ix) {s : State}
    (hv : wlValid s.wl = true) {i : Nat} (hi : i < n) :
    wordAtSlot (complete (commit ent n (csOfWords n) c ix s)) i = wordAt s.wl (ix.getD i 0) := by
  obtain ⟨-, -, -, -, h24, -, -⟩ := supportedWords_row hrow.supported
  obtain ⟨h0, hfits⟩ := wordAt_fits hv (hrow.getD_lt i)
  rw [wordAtSlot_eq _ (by omega), complete_wordW, commit_wordW, getElem_tabulate, if_pos hi,
    slotWord_blockOfBytes _ hfits h0]

/-- Settles O50: the encoding is that of the same bytes, and each commit takes its own list's words of its indices. -/
theorem languageIndependence : Obligations.LanguageIndependence := by
  intro len s wl h hv hv'
  have hrow := isEncoding_entBytes h s
  refine ⟨_, _, execEncode_of_valid h hv, execEncode_of_valid (s := { s with wl := wl }) h hv', rfl, rfl, rfl, rfl, rfl,
    rfl, rfl, fun i hi => ?_⟩
  rw [hrow.commit_index s hi]
  exact ⟨hrow.commit_wordAtSlot hv hi, hrow.commit_wordAtSlot (s := { s with wl := wl }) hv' hi⟩

end Sys2Proof.Machine
end

section
/-!
Commands of an unsupported length (41_encode R163, R174, 42_decode R198).
-/

namespace Sys2Proof.Machine

theorem supportedBytes_eq_false {len : Nat} (h : len < 16 ∨ len % 4 ≠ 0 ∨ 33 ≤ len) : supportedBytes len = false := by
  by_contra hs
  have := supportedBytes_cases (Bool.eq_true_of_not_eq_false hs)
  omega

theorem supportedWords_eq_false {n : Nat} (h : n < 12 ∨ n % 3 ≠ 0 ∨ 25 ≤ n) : supportedWords n = false := by
  by_contra hs
  have := supportedWords_cases (Bool.eq_true_of_not_eq_false hs)
  omega

/-- Settles O34: such a length stands in none of the five rows, and the length is checked first. -/
theorem unsupportedEntropyLength : Obligations.UnsupportedEntropyLength :=
  fun _ s h => execEncode_of_unsupported (supportedBytes_eq_false h) s

/-- Settles O35: the count is checked before the draw and before the lookup. -/
theorem unsupportedWordCount : Obligations.UnsupportedWordCount := fun _ verify s h =>
  ⟨execEncodeRandom_of_unsupported (supportedWords_eq_false h) s,
    execDecode_of_unsupported (supportedWords_eq_false h) verify s⟩

end Sys2Proof.Machine
end

section
/-!
The rules of the commit (41_encode R162): what it reads of the state before it, what it leaves in ENT, and the random
source's view, which it keeps as an error does.
-/

namespace Sys2Proof.Machine

theorem raiseErr_nothingDrawn (e : ErrCode) (pos : Nat) (s : State) : NothingDrawn s (raiseErr e pos s) := ⟨rfl, rfl⟩

theorem commit_nothingDrawn (ent : Bytes) (n cs c : Nat) (ix : List Nat) (s : State) :
    NothingDrawn s (complete (commit ent n cs c ix s)) := ⟨rfl, rfl⟩

/-- Of the data registers the commit reads none: with the same wordlist it writes the same values. -/
theorem commit_sameData (ent : Bytes) (n cs c : Nat) (ix : List Nat) {s t : State} (h : t.wl = s.wl) :
    SameData (complete (commit ent n cs c ix s)) (complete (commit ent n cs c ix t)) := by
  refine ⟨rfl, ?_, rfl, rfl, ?_⟩
  · simp [h]
  · simp [h]

/-- A commit replaces all that an earlier one wrote. -/
theorem commit_commit (ent ent' : Bytes) (n n' cs cs' c c' : Nat) (ix ix' : List Nat) (s : State) :
    complete (commit ent n cs c ix (complete (commit ent' n' cs' c' ix' s))) = complete (commit ent n cs c ix s) := rfl

/-- The commit does not read ENT. -/
theorem commit_of_entW (ent : Bytes) (n cs c : Nat) (ix : List Nat) (s : State) (e : Block) :
    complete (commit ent n cs c ix { s with entW := e }) = complete (commit ent n cs c ix s) := rfl

/-- `ENT[0..L-1]` after the commit of L bytes are these bytes. -/
theorem entBytes_commit {ent : Bytes} {len : Nat} (hl : ent.length = len) (h32 : len ≤ 32) (n cs c : Nat) (ix : List Nat)
    (s : State) : entBytes (complete (commit ent n cs c ix s)) len = ent := by
  subst hl
  rw [entBytes, complete_entW, commit_entW, blockBytes_blockOfBytes ent h32, List.take_left]

/-- The bytes of ENT beyond those committed are 0. -/
theorem blockByte_entW_commit {ent : Bytes} {k : Nat} (hk : ent.length ≤ k) (h32 : k < 32) (n cs c : Nat) (ix : List Nat)
    (s : State) : blockByte (complete (commit ent n cs c ix s)).entW k = 0 := by
  rw [complete_entW, commit_entW, blockByte_blockOfBytes ent k h32, List.getD_eq_default _ _ hk]

/-- The commit of a row under a valid wordlist holds the row's result. -/
theorem IsEncoding.holdsResult {ent : Bytes} {n c : Nat} {ix : List Nat} (hrow : IsEncoding ent n c ix) {s : State}
    (hv : wlValid s.wl = true) :
    HoldsResult (complete (commit ent n (csOfWords n) c ix s)) s.wl ent n (csOfWords n) c ix :=
  commit_holdsResult hv hrow.supported hrow.ent_length (hrow.checksum ▸ Nat.mod_lt _ (by positivity))
    fun i _ => hrow.getD_lt i

end Sys2Proof.Machine
end

section
/-!
ENCODE (41_encode R160 to R167).
-/

namespace Sys2Proof.Machine

/-- Settles O43: what ENCODE commits is the row of `ENT[0..L-1]`, and the commit writes the result registers alone. -/
theorem encodeResult : Obligations.EncodeResult := by
  intro len s h hv
  obtain ⟨-, hcs, -, h32, -⟩ := supportedBytes_row h
  have hholds := (isEncoding_entBytes h s).holdsResult hv
  rw [← hcs] at hholds
  have hexec := execEncode_of_valid h hv
  rw [← hcs] at hexec
  exact ⟨_, hexec, hholds, entBytes_length s len h32, rfl, ⟨rfl, rfl, rfl⟩, commit_nothingDrawn ..⟩

/-- Settles O44: an error keeps ENT, and a success writes `ENT[0..L-1]` back with zero bytes after it. -/
theorem encodeKeepsEntropy : Obligations.EncodeKeepsEntropy := by
  intro len s t h
  rcases execEncode_cases len s with ⟨-, he⟩ | ⟨-, -, he⟩ | ⟨hlen, hv, -⟩
  · obtain rfl := Host.Outcome.next.inj (he.symm.trans h)
    exact ⟨rfl, fun hs => absurd hs statusError_ne_statusSuccess⟩
  · obtain rfl := Host.Outcome.next.inj (he.symm.trans h)
    exact ⟨rfl, fun hs => absurd hs statusError_ne_statusSuccess⟩
  · obtain rfl := Host.Outcome.next.inj ((execEncode_of_valid hlen hv).symm.trans h)
    obtain ⟨-, -, -, h32, -⟩ := supportedBytes_row hlen
    have hl := entBytes_length s len h32
    exact ⟨entBytes_commit hl h32 .., fun _ k hk hk32 => blockByte_entW_commit (hl.trans_le hk) hk32 ..⟩

/-- Settles O45: the checks do not read ENT, and the encoding reads its first L bytes and overwrites all of it. -/
theorem encodeIgnoresTail : Obligations.EncodeIgnoresTail := by
  intro len s e h
  have hent : entBytes { s with entW := e } len = entBytes s len := h
  rcases execEncode_cases len s with ⟨hlen, he⟩ | ⟨hlen, hv, he⟩ | ⟨hlen, hv, -⟩
  · exact ⟨_, _, he, execEncode_of_unsupported hlen _, rfl, rfl, fun hs => absurd hs statusError_ne_statusSuccess,
      fun _ => rfl⟩
  · exact ⟨_, _, he, execEncode_of_invalid hlen hv, rfl, rfl, fun hs => absurd hs statusError_ne_statusSuccess,
      fun _ => rfl⟩
  · have he' := execEncode_of_valid (s := { s with entW := e }) hlen hv
    rw [hent, commit_of_entW] at he'
    exact ⟨_, _, execEncode_of_valid hlen hv, he', rfl, rfl, fun _ => rfl,
      fun hs => absurd hs statusError_ne_statusSuccess.symm⟩

/-- A second ENCODE after a success rewrites the same state: ENT still holds the entropy (R165, R167). -/
theorem execEncode_again {len : Nat} {s t : State} (h : supportedBytes len = true) (hv : wlValid s.wl = true)
    (ht : execEncode len s = .next t) : execEncode len t = .next t := by
  obtain rfl := Host.Outcome.next.inj ((execEncode_of_valid h hv).symm.trans ht)
  obtain ⟨-, -, -, h32, -⟩ := supportedBytes_row h
  rw [execEncode_of_valid h, entBytes_commit (entBytes_length s len h32) h32, commit_commit]
  exact hv

/-- Settles O46: the commit reads the wordlist and `ENT[0..L-1]` alone. -/
theorem encodeDeterministic : Obligations.EncodeDeterministic := by
  intro len s s' h hv hwl hent
  have he := execEncode_of_valid h hv
  have he' := execEncode_of_valid h (hwl.symm ▸ hv : wlValid s'.wl = true)
  rw [hent] at he'
  exact ⟨_, _, he, he', commit_sameData _ _ _ _ _ hwl, rfl, rfl, execEncode_again h hv he⟩

end Sys2Proof.Machine
end

section
/-!
ENCODE_RANDOM and its draw (41_encode R170 to R175), and which commands draw (60_exceptions R240).
-/

namespace Sys2Proof.Machine

/-- Past its checks ENCODE_RANDOM draws, and a failed draw is an error raised in the state after the draw (R170). -/
theorem execEncodeRandom_of_failed_draw {n : Nat} {s s' : State} (h : supportedWords n = true)
    (hv : wlValid s.wl = true) (hd : drawRandom (bytesOfWords n) s = (none, s')) :
    execEncodeRandom n s = .next (raiseErr .randomSourceFailure 0 s') := by
  rw [execEncodeRandom, if_neg (by simp [h]), if_neg (by simp [hv]), hd]

/-- With a successful draw ENCODE_RANDOM commits the encoding of the drawn bytes (R170, R172). -/
theorem execEncodeRandom_of_draw {n : Nat} {s s' : State} {r : Bytes} (h : supportedWords n = true)
    (hv : wlValid s.wl = true) (hd : drawRandom (bytesOfWords n) s = (some r, s')) :
    execEncodeRandom n s =
      .next (complete (commit r n (csOfWords n) (cval r (csOfWords n)) (encodeCore r).chunks s')) := by
  obtain ⟨-, hcs, hw, -, -, -, h32⟩ := supportedWords_row h
  rw [execEncodeRandom, if_neg (by simp [h]), if_neg (by simp [hv]), hd]
  simp only [encodeEntropy_eq, drawRandom_length h32 hd, hcs, hw]

/-- The encoding of a string of the length that a supported count asks for is that count's row (R127, R172). -/
theorem isEncoding_of_length {n : Nat} {r : Bytes} (h : supportedWords n = true) (hl : r.length = bytesOfWords n) :
    IsEncoding r n (cval r (csOfWords n)) (encodeCore r).chunks := by
  obtain ⟨hb, hcs, hw, -, -, -, -⟩ := supportedWords_row h
  have hrow := isEncoding_encodeCore (hl.symm ▸ hb : supportedBytes r.length = true)
  rwa [hl, hcs, hw] at hrow

/-- Settles O37: the draw moves the random source's view alone, and the error it raises keeps it. -/
theorem randomSourceFailure : Obligations.RandomSourceFailure := by
  intro n s s' h hv hd
  obtain ⟨script, k, rfl⟩ := drawRandom_inversion hd
  exact ⟨_, execEncodeRandom_of_failed_draw h hv hd, rfl, rfl, rfl, ⟨rfl, rfl, rfl, rfl, rfl⟩, ⟨rfl, rfl, rfl⟩, rfl, rfl⟩

/-- Settles O47: what ENCODE_RANDOM commits is the row of the drawn bytes, and the draw moves the random source's view
alone. -/
theorem encodeRandomResult : Obligations.EncodeRandomResult := by
  intro n s s' r h hv hd
  obtain ⟨-, -, -, -, -, -, h32⟩ := supportedWords_row h
  have hexec := execEncodeRandom_of_draw h hv hd
  have hl := drawRandom_length h32 hd
  obtain ⟨script, k, rfl⟩ := drawRandom_inversion hd
  exact ⟨_, hexec, (isEncoding_of_length h hl).holdsResult hv, hl, rfl, ⟨rfl, rfl, rfl⟩, rfl, rfl⟩

/-- Any string of at most 32 bytes begins an answer of the random source (R171). -/
theorem exists_toList_take_eq {r : Bytes} (h : r.length ≤ 32) :
    ∃ v : Vector Byte 32, v.toList.take r.length = r :=
  ⟨⟨(r ++ List.replicate (32 - r.length) 0).toArray, by simp [h]⟩, by simp⟩

/-- A draw takes the first bytes of a scripted answer, and takes that answer off the script. -/
theorem drawRandom_scripted (len : Nat) (a : Option (Vector Byte 32)) (s : State) :
    drawRandom len { s with rngScript := [a] } = (a.map fun v => v.toList.take len, { s with rngScript := [] }) := rfl

/-- Settles O48: a scripted answer may begin with any string of up to 32 bytes, or be a failure. -/
theorem drawIsFree : Obligations.DrawIsFree := by
  refine ⟨?_, fun len s => drawRandom_scripted len none s, fun _ _ _ _ h32 hd => drawRandom_length h32 hd⟩
  rintro _ r h32 rfl
  obtain ⟨v, hv⟩ := exists_toList_take_eq h32
  refine ⟨some v, fun s => ?_⟩
  rw [drawRandom_scripted, Option.map_some, hv]

/-- The draw neither reads nor writes ENT. -/
theorem drawRandom_entW (len : Nat) (s : State) (e : Block) : drawRandom len { s with entW := e } =
    ((drawRandom len s).1, { (drawRandom len s).2 with entW := e }) := by
  cases hs : s.rngScript with
  | nil => simp [drawRandom, hs]
  | cons a rest => simp [drawRandom, hs]

/-- Settles O49: neither the checks nor the draw read ENT, and the commit overwrites it with the drawn bytes. -/
theorem randomIgnoresEntropy : Obligations.RandomIgnoresEntropy := by
  intro n s e
  rcases execEncodeRandom_cases n s with ⟨h, he⟩ | ⟨h, hv, he⟩ | ⟨h, hv, s', hd, he⟩ | ⟨h, hv, r, s', hd, -⟩
  · exact ⟨_, _, he, execEncodeRandom_of_unsupported h _, rfl, rfl, fun hs => absurd hs statusError_ne_statusSuccess,
      fun _ => ⟨rfl, rfl⟩⟩
  · exact ⟨_, _, he, execEncodeRandom_of_invalid h hv, rfl, rfl, fun hs => absurd hs statusError_ne_statusSuccess,
      fun _ => ⟨rfl, rfl⟩⟩
  · have he' := execEncodeRandom_of_failed_draw (s := { s with entW := e }) h hv (by rw [drawRandom_entW, hd])
    obtain ⟨script, k, rfl⟩ := drawRandom_inversion hd
    exact ⟨_, _, he, he', rfl, rfl, fun hs => absurd hs statusError_ne_statusSuccess, fun _ => ⟨rfl, rfl⟩⟩
  · obtain ⟨-, -, -, -, -, -, h32⟩ := supportedWords_row h
    have he' := execEncodeRandom_of_draw (s := { s with entW := e }) h hv (by rw [drawRandom_entW, hd])
    rw [commit_of_entW] at he'
    refine ⟨_, _, execEncodeRandom_of_draw h hv hd, he', rfl, rfl, fun _ => ⟨rfl, ?_⟩,
      fun hs => absurd hs statusError_ne_statusSuccess.symm⟩
    rw [hd, entBytes_commit (drawRandom_length h32 hd) h32]

/-- ENCODE does not draw (R240). -/
theorem execEncode_nothingDrawn {len : Nat} {s t : State} (h : execEncode len s = .next t) : NothingDrawn s t := by
  rcases execEncode_cases len s with ⟨-, he⟩ | ⟨-, -, he⟩ | ⟨-, -, he⟩ <;>
    obtain rfl := Host.Outcome.next.inj (he.symm.trans h)
  · exact raiseErr_nothingDrawn ..
  · exact raiseErr_nothingDrawn ..
  · rw [encodeEntropy_eq]
    exact commit_nothingDrawn ..

/-- DECODE does not draw (R240). -/
theorem execDecode_nothingDrawn {n : Nat} {verify : Bool} {s t : State} (h : execDecode n verify s = .next t) :
    NothingDrawn s t := by
  rcases execDecode_cases n verify s with ⟨-, he⟩ | ⟨-, -, he⟩ | ⟨-, -, p, -, he⟩ | ⟨-, -, ix, -, he⟩ <;>
    obtain rfl := Host.Outcome.next.inj (he.symm.trans h)
  · exact raiseErr_nothingDrawn ..
  · exact raiseErr_nothingDrawn ..
  · exact raiseErr_nothingDrawn ..
  · rcases decodeIndices_cases n verify ix s with ⟨-, -, hd⟩ | ⟨-, hd⟩ <;> rw [hd]
    · exact raiseErr_nothingDrawn ..
    · exact commit_nothingDrawn ..

/-- Settles O42: ENCODE and DECODE never draw, and both checks of ENCODE_RANDOM stand before its draw. -/
theorem onlyRandomDraws : Obligations.OnlyRandomDraws := by
  intro i s t h hchecks
  cases i with
  | encode len => exact execEncode_nothingDrawn h
  | decode n verify => exact execDecode_nothingDrawn h
  | encodeRandom n =>
    rcases execEncodeRandom_cases n s with ⟨-, he⟩ | ⟨-, -, he⟩ | ⟨hn, hv, -⟩ | ⟨hn, hv, -⟩
    · obtain rfl := Host.Outcome.next.inj (he.symm.trans h)
      exact raiseErr_nothingDrawn ..
    · obtain rfl := Host.Outcome.next.inj (he.symm.trans h)
      exact raiseErr_nothingDrawn ..
    · simpa [hn, hv] using hchecks n rfl
    · simpa [hn, hv] using hchecks n rfl

end Sys2Proof.Machine
end

section
/-!
What an encoding of the split entropy gives: the entropy bits as received, with the checksum computed anew
(40_datapath R127 to R130).
-/

namespace Sys2Proof.Machine

/-- The entropy rebuilt from n indices is as long as the row's ENCODE takes (R120, R130). -/
theorem csOfBytes_split_ent {ix : List Nat} (hn : supportedWords ix.length = true) :
    csOfBytes (split ix).ent.length = csOfWords ix.length := by
  obtain ⟨-, hcs, -⟩ := supportedWords_row hn
  rw [split_ent_length, hcs]

/-- The spliced string of the split entropy: the received entropy bits, then the checksum of that entropy (R125, R128). -/
theorem splice_split_ent {ix : List Nat} (hn : supportedWords ix.length = true) : splice (split ix).ent =
    (indexBits ix).take (8 * bytesOfWords ix.length) ++ checksum (split ix).ent (csOfWords ix.length) := by
  rw [splice, csOfBytes_split_ent hn, split_ent hn, bytesToBits_bitsToBytes (length_indexBits_take hn)]

/-- Under the right checksum the spliced string of the split entropy is the string of the indices (R132, R133). -/
theorem splice_split_ent_of_checksum {ix : List Nat} (hn : supportedWords ix.length = true)
    (hc : (split ix).c = cval (split ix).ent (csOfWords ix.length)) : splice (split ix).ent = indexBits ix := by
  obtain ⟨-, -, -, -, -, h8, -⟩ := supportedWords_row hn
  obtain ⟨-, hbits⟩ := supportedWords_bits hn
  have hsum : checksum (split ix).ent (csOfWords ix.length) = (indexBits ix).drop (8 * bytesOfWords ix.length) := by
    refine eq_of_val ?_ ?_
    · rw [checksum_length _ h8, List.length_drop, indexBits_length]
      omega
    · rw [val_checksum, ← hc, split_c_eq_val_drop hn]
  rw [splice_split_ent hn, hsum, List.take_append_drop]

/-- Under the right checksum the encoding of the split entropy gives the indices back (R133). -/
theorem encodeCore_chunks_split {ix : List Nat} (hn : supportedWords ix.length = true) (hx : ∀ i ∈ ix, i < 2048)
    (hc : (split ix).c = cval (split ix).ent (csOfWords ix.length)) : (encodeCore (split ix).ent).chunks = ix := by
  obtain ⟨-, -, hw, -⟩ := supportedWords_row hn
  rw [encodeCore, split_ent_length, hw, splice_split_ent_of_checksum hn hc, groups_indexBits ix hx]

/-- An index is the value of its eleven bits of the string of the indices (R128). -/
theorem getD_eq_val_indexBits {ix : List Nat} (hx : ∀ i ∈ ix, i < 2048) {i : Nat} (hi : i < ix.length) :
    ix.getD i 0 = val (((indexBits ix).drop (11 * i)).take 11) := by
  have hg := congrArg (·.getD i 0) (groups_indexBits ix hx)
  have hi' : i < (groups 11 ix.length (indexBits ix)).length := by rwa [groups_length]
  rw [← hg, List.getD, List.getElem?_map, List.getElem?_eq_getElem hi', groups_getElem]
  rfl

/-- Whatever checksum came with the indices, the encoding of the split entropy gives every index but the last one back:
the checksum's bits all stand in the last chunk (R127). -/
theorem encodeCore_chunk_split {ix : List Nat} (hn : supportedWords ix.length = true) (hx : ∀ i ∈ ix, i < 2048)
    {i : Nat} (hi : i + 1 < ix.length) : (encodeCore (split ix).ent).chunks.getD i 0 = ix.getD i 0 := by
  obtain ⟨-, -, hw, -, -, h8, -⟩ := supportedWords_row hn
  obtain ⟨-, hbits⟩ := supportedWords_bits hn
  have hi' : i < wordsOfBytes (split ix).ent.length := by
    rw [split_ent_length, hw]
    omega
  have hlen := length_indexBits_take hn
  rw [getD_eq_val_indexBits hx (by omega), List.getD, getElem?_encodeCore_chunks hi', Option.getD_some,
    splice_split_ent hn, List.drop_append_of_le_length (by omega),
    List.take_append_of_le_length (by rw [List.length_drop]; omega), List.drop_take, List.take_take,
    Nat.min_eq_left (by omega)]

end Sys2Proof.Machine
end

section
/-!
DECODE (42_decode R190 to R200).
-/

namespace Sys2Proof.Machine

/-- The lookup of the first n slots gives the indices of their words (R139, R190). -/
theorem lookupAll_slotWords {s : State} {ix : List Nat}
    (h : ∀ i < ix.length, indexOf s.wl (wordAtSlot s i) = some (ix.getD i 0)) :
    lookupAll s.wl (slotWords s ix.length) = .ok ix := by
  obtain ⟨hok, -⟩ := lookupAll_spec s.wl (slotWords s ix.length)
  refine (hok ix).2 (List.ext_getElem (by simp) fun i hi hi' => ?_)
  rw [List.length_map] at hi'
  simp only [slotWords, List.getElem_map, List.getElem_range]
  rw [h i hi', List.getD_eq_getElem _ _ hi']

theorem execDecode_of_unknownWord {n p : Nat} {s : State} (h : supportedWords n = true) (hv : wlValid s.wl = true)
    (hl : lookupAll s.wl (slotWords s n) = .unknownWord p) (verify : Bool) :
    execDecode n verify s = .next (raiseErr .unknownWord p s) := by
  rw [execDecode, if_neg (by simp [h]), if_neg (by simp [hv]), hl]

theorem execDecode_of_known {n : Nat} {s : State} {ix : List Nat} (h : supportedWords n = true)
    (hv : wlValid s.wl = true) (hl : lookupAll s.wl (slotWords s n) = .ok ix) (verify : Bool) :
    execDecode n verify s = .next (decodeIndices n verify ix s) := by
  rw [execDecode, if_neg (by simp [h]), if_neg (by simp [hv]), hl]

/-- Without a failing check the end of DECODE is the commit of the split (R190, R191). -/
theorem decodeIndices_of_checksum {n : Nat} {verify : Bool} {ix : List Nat}
    (hc : verify = true → (split ix).c = cval (split ix).ent (csOfWords n)) (s : State) :
    decodeIndices n verify ix s = complete (commit (split ix).ent n (csOfWords n) (split ix).c ix s) :=
  if_neg fun ⟨hverify, hne⟩ => hne (hc hverify)

theorem decodeIndices_of_mismatch {n : Nat} {verify : Bool} {ix : List Nat} (hverify : verify = true)
    (hc : (split ix).c ≠ cval (split ix).ent (csOfWords n)) (s : State) :
    decodeIndices n verify ix s = raiseErr .checksumMismatch 0 s :=
  if_pos ⟨hverify, hc⟩

/-- What DECODE commits on looked-up words is a row (R129, R191). -/
theorem isEncoding_of_lookup {n : Nat} {s : State} {ix : List Nat} (h : supportedWords n = true)
    (hl : lookupAll s.wl (slotWords s n) = .ok ix) : IsEncoding (split ix).ent n (split ix).c ix := by
  obtain ⟨hlen, hx⟩ := lookupAll_ok hl
  obtain rfl : ix.length = n := hlen.trans (slotWords_length s n)
  exact isEncoding_split h hx

/-- A successful DECODE has committed the split of its looked-up indices, the check passing if it verifies. -/
theorem execDecode_success {n : Nat} {verify : Bool} {s t : State} (h : execDecode n verify s = .next t)
    (hs : t.status = statusSuccess) : supportedWords n = true ∧ wlValid s.wl = true ∧
      ∃ ix, lookupAll s.wl (slotWords s n) = .ok ix ∧
        (verify = true → (split ix).c = cval (split ix).ent (csOfWords n)) ∧
        t = complete (commit (split ix).ent n (csOfWords n) (split ix).c ix s) := by
  rcases execDecode_cases n verify s with ⟨-, he⟩ | ⟨-, -, he⟩ | ⟨-, -, p, -, he⟩ | ⟨hn, hv, ix, hl, he⟩ <;>
    obtain rfl := Host.Outcome.next.inj (he.symm.trans h)
  · exact absurd hs statusError_ne_statusSuccess
  · exact absurd hs statusError_ne_statusSuccess
  · exact absurd hs statusError_ne_statusSuccess
  · rcases decodeIndices_cases n verify ix s with ⟨-, -, hd⟩ | ⟨hc, hd⟩ <;> rw [hd] at hs
    · exact absurd hs statusError_ne_statusSuccess
    · exact ⟨hn, hv, ix, hl, hc, hd⟩

/-- Settles O51: the known words look up to their indices, whose split is the row that is committed. -/
theorem decodeResult : Obligations.DecodeResult := by
  rintro _ verify s ix hn hv rfl hknown hc
  have hl := lookupAll_slotWords hknown
  refine ⟨_, execDecode_of_known hn hv hl verify, ?_⟩
  rw [decodeIndices_of_checksum hc]
  exact ⟨(isEncoding_of_lookup hn hl).holdsResult hv, split_ent_length ix, rfl, ⟨rfl, rfl, rfl⟩,
    commit_nothingDrawn ..⟩

/-- ENCODE after the commit of an entropy of its length encodes that entropy (R193, R196). -/
theorem execEncode_of_committed {ent : Bytes} {n : Nat} {s : State} (hn : supportedWords n = true)
    (hv : wlValid s.wl = true) (hl : ent.length = bytesOfWords n) (cs c : Nat) (ix : List Nat) :
    execEncode (bytesOfWords n) (complete (commit ent n cs c ix s)) =
      .next (complete (commit ent n (csOfWords n) (cval ent (csOfWords n)) (encodeCore ent).chunks s)) := by
  obtain ⟨hb, hcs, hw, -, -, -, h32⟩ := supportedWords_row hn
  rw [execEncode_of_valid hb, entBytes_commit hl h32, hw, hcs, commit_commit]
  exact hv

/-- Two commits on the same state agree in the IDX register and the slot of every number at which their indices do. -/
theorem commit_getElem_congr {ent ent' : Bytes} {n cs cs' c c' : Nat} {ix ix' : List Nat} (s : State) {i : Nat}
    (h : i < 24) (hix : i < n → ix.getD i 0 = ix'.getD i 0) :
    (complete (commit ent n cs c ix s)).idx[i] = (complete (commit ent' n cs' c' ix' s)).idx[i] ∧
      (complete (commit ent n cs c ix s)).wordW[i] = (complete (commit ent' n cs' c' ix' s)).wordW[i] := by
  simp only [complete_idx, complete_wordW, commit_idx, commit_wordW, getElem_tabulate]
  by_cases hi : i < n
  · simp only [if_pos hi, hix hi, and_self]
  · simp only [if_neg hi, and_self]

/-- Settles O52: both commands commit the same entropy, and the checksum's bits stand in the last index alone. -/
theorem decodeUnverified : Obligations.DecodeUnverified := by
  rintro _ s ix hn hv rfl hknown
  have hl := lookupAll_slotWords hknown
  obtain ⟨-, hx⟩ := lookupAll_ok hl
  obtain ⟨-, -, -, hpos, -⟩ := supportedWords_row hn
  have hlen := split_ent_length ix
  have hrow := isEncoding_of_lookup hn hl
  obtain ⟨-, -, -, -, -, -, -, hwcount, hentlen, hcslen, hcsval, -⟩ := hrow.holdsResult hv
  obtain ⟨-, -, -, -, -, -, -, hwcount', hentlen', hcslen', -⟩ := (isEncoding_of_length hn hlen).holdsResult hv
  have hdecode := execDecode_of_known hn hv hl false
  rw [decodeIndices_of_checksum (by simp)] at hdecode
  have hencode := execEncode_of_committed hn hv hlen (csOfWords ix.length) (split ix).c ix
  refine ⟨_, hdecode, rfl, rfl, hrow.commit_index s (by omega), hcsval.trans (split_c hn), _, hencode, by simp,
    by simp, hwcount'.trans hwcount.symm, hentlen'.trans hentlen.symm, hcslen'.trans hcslen.symm, by simp, by simp,
    by simp, fun i h hi => ?_⟩
  obtain ⟨hidx, hword⟩ := commit_getElem_congr s h fun hin : i < ix.length =>
    encodeCore_chunk_split hn hx (by omega : i + 1 < ix.length)
  refine ⟨hidx, ?_, hword⟩
  rw [State.index_eq _ h, State.index_eq _ h, hidx]

/-- The words of the first n slots depend on these slots alone (R197). -/
theorem slotWords_congr {n : Nat} {s : State} {w : Vector Block 24} (h24 : n ≤ 24)
    (hw : ∀ (i : Nat) (h : i < 24), i < n → w[i] = s.wordW[i]) :
    slotWords { s with wordW := w } n = slotWords s n := by
  refine List.map_congr_left fun i hi => ?_
  have hin : i < n := List.mem_range.1 hi
  rw [wordAtSlot_eq _ (hin.trans_le h24), wordAtSlot_eq _ (hin.trans_le h24)]
  exact congrArg slotWord (hw i _ hin)

/-- The commit does not read the word slots. -/
theorem commit_of_wordW (ent : Bytes) (n cs c : Nat) (ix : List Nat) (s : State) (w : Vector Block 24) :
    complete (commit ent n cs c ix { s with wordW := w }) = complete (commit ent n cs c ix s) := rfl

/-- Settles O53: the lookup reads the first n slots alone, an error keeps all slots, and the commit overwrites them. -/
theorem decodeIgnoresUnusedSlots : Obligations.DecodeIgnoresUnusedSlots := by
  intro n verify s w hw
  have hslots (hn : supportedWords n = true) : slotWords { s with wordW := w } n = slotWords s n := by
    obtain ⟨-, -, -, -, h24, -⟩ := supportedWords_row hn
    exact slotWords_congr h24 hw
  rcases execDecode_cases n verify s with ⟨hn, he⟩ | ⟨hn, hv, he⟩ | ⟨hn, hv, p, hl, he⟩ | ⟨hn, hv, ix, hl, he⟩
  · have he' := execDecode_of_unsupported hn verify { s with wordW := w }
    exact ⟨_, _, he, he', rfl, rfl, fun hs => absurd hs statusError_ne_statusSuccess, fun _ => rfl⟩
  · have he' := execDecode_of_invalid (s := { s with wordW := w }) hn hv verify
    exact ⟨_, _, he, he', rfl, rfl, fun hs => absurd hs statusError_ne_statusSuccess, fun _ => rfl⟩
  · have he' := execDecode_of_unknownWord (s := { s with wordW := w }) hn hv ((hslots hn).symm ▸ hl) verify
    exact ⟨_, _, he, he', rfl, rfl, fun hs => absurd hs statusError_ne_statusSuccess, fun _ => rfl⟩
  · have he' := execDecode_of_known (s := { s with wordW := w }) hn hv ((hslots hn).symm ▸ hl) verify
    refine ⟨_, _, he, he', ?_⟩
    rcases decodeIndices_cases n verify ix s with ⟨hverify, hc, hd⟩ | ⟨hc, hd⟩
    · rw [hd, decodeIndices_of_mismatch hverify hc]
      exact ⟨rfl, rfl, fun hs => absurd hs statusError_ne_statusSuccess, fun _ => rfl⟩
    · obtain ⟨-, -, -, hempty, -⟩ := (isEncoding_of_lookup hn hl).holdsResult hv
      rw [hd, decodeIndices_of_checksum hc, commit_of_wordW]
      refine ⟨rfl, rfl, fun _ => ⟨rfl, fun i hin h => ?_⟩, fun hs => absurd hs statusError_ne_statusSuccess.symm⟩
      obtain ⟨-, hword, -⟩ := hempty i h hin
      exact hword

/-- A verified DECODE left a state that ENCODE of its entropy rewrites (R193). -/
theorem execEncode_of_decoded {n : Nat} {s t : State} (h : execDecode n true s = .next t)
    (hs : t.status = statusSuccess) : execEncode (bytesOfWords n) t = .next t := by
  obtain ⟨hn, hv, ix, hl, hc, rfl⟩ := execDecode_success h hs
  obtain ⟨hlen, hx⟩ := lookupAll_ok hl
  obtain rfl : ix.length = n := hlen.trans (slotWords_length s n)
  rw [execEncode_of_committed hn hv (split_ent_length ix), encodeCore_chunks_split hn hx (hc rfl), ← hc rfl]

/-- The slots that the commit of a row under a valid wordlist wrote look up to the row's indices (R138, R193). -/
theorem IsEncoding.lookupAll_commit {ent : Bytes} {n c : Nat} {ix : List Nat} (hrow : IsEncoding ent n c ix) {s : State}
    (hv : wlValid s.wl = true) :
    lookupAll s.wl (slotWords (complete (commit ent n (csOfWords n) c ix s)) n) = .ok ix := by
  obtain rfl := hrow.length
  refine lookupAll_slotWords (s := complete (commit ent _ _ c ix s)) fun i hi => ?_
  rw [hrow.commit_wordAtSlot hv hi]
  exact indexOf_wordAt hv (hrow.getD_lt i)

/-- A successful ENCODE has committed the encoding of `ENT[0..L-1]`. -/
theorem execEncode_success {len : Nat} {s t : State} (h : execEncode len s = .next t) (hs : t.status = statusSuccess) :
    supportedBytes len = true ∧ wlValid s.wl = true ∧
      t = complete (commit (entBytes s len) (wordsOfBytes len) (csOfWords (wordsOfBytes len))
        (cval (entBytes s len) (csOfBytes len)) (encodeCore (entBytes s len)).chunks s) := by
  rcases execEncode_cases len s with ⟨-, he⟩ | ⟨-, -, he⟩ | ⟨hlen, hv, -⟩
  · obtain rfl := Host.Outcome.next.inj (he.symm.trans h)
    exact absurd hs statusError_ne_statusSuccess
  · obtain rfl := Host.Outcome.next.inj (he.symm.trans h)
    exact absurd hs statusError_ne_statusSuccess
  · exact ⟨hlen, hv, Host.Outcome.next.inj (h.symm.trans (execEncode_of_valid hlen hv))⟩

/-- The split of what ENCODE commits is the entropy and the checksum it was made of (R133). -/
theorem split_chunks_entBytes {len : Nat} (h : supportedBytes len = true) (s : State) :
    split (encodeCore (entBytes s len)).chunks = ⟨entBytes s len, cval (entBytes s len) (csOfBytes len)⟩ := by
  obtain ⟨-, -, -, h32, -⟩ := supportedBytes_row h
  have hl := entBytes_length s len h32
  have hsplit := split_encodeCore_chunks (hl.symm ▸ h : supportedBytes (entBytes s len).length = true)
  rwa [hl] at hsplit

/-- An idle block accepts every command word (20_memory R72). -/
theorem acceptCommand_of_idle (v : Word32) {s : State} (h : s.busy = false) :
    acceptCommand v s = { s with cmd := v, status := statusBusy, errinfo := 0 } := by
  rw [acceptCommand, if_neg (by simp [h])]

/-- DECODE.V accepted after a successful ENCODE commits what stands there already: only CMD has changed (R193). -/
theorem execDecode_of_encoded {len : Nat} {s t : State} (h : execEncode len s = .next t)
    (hs : t.status = statusSuccess) (v : Word32) :
    execDecode (wordsOfBytes len) true (acceptCommand v t) = .next { t with cmd := v } := by
  obtain ⟨hlen, hv, rfl⟩ := execEncode_success h hs
  obtain ⟨hn, hcs, -⟩ := supportedBytes_row hlen
  have hlook := (isEncoding_entBytes hlen s).lookupAll_commit hv
  have hsplit := split_chunks_entBytes hlen s
  rw [acceptCommand_of_idle v (busy_of_statusSuccess hs),
    execDecode_of_known hn (ix := (encodeCore (entBytes s len)).chunks), decodeIndices_of_checksum, hsplit]
  · rfl
  · rw [hsplit, hcs]
    exact fun _ => rfl
  · exact hv
  · exact hlook

/-- Settles O54: each command, run on what the other left, commits the same row. -/
theorem decodeAgreesWithEncode : Obligations.DecodeAgreesWithEncode :=
  ⟨fun _ _ _ h hs => execEncode_of_decoded h hs, fun _ _ _ v h hs => execDecode_of_encoded h hs v⟩

end Sys2Proof.Machine
end

section
/-!
Errors as the host reads them (60_exceptions R220 to R231): the two fields of ERRINFO, the errors each command can end
with, and what an error leaves alone.
-/

namespace Sys2Proof

/-- The errors a command can end with: those of its own algorithm (41_encode R160, R170, 42_decode R190, R196). -/
def Instr.errors : Instr → List Machine.ErrCode
  | .encode _ => [.invalidEntropyLength, .wordlistUnavailable]
  | .encodeRandom _ => [.invalidWordCount, .wordlistUnavailable, .randomSourceFailure]
  | .decode _ true => [.invalidWordCount, .wordlistUnavailable, .unknownWord, .checksumMismatch]
  | .decode _ false => [.invalidWordCount, .wordlistUnavailable, .unknownWord]

/-- Only a verifying DECODE compares checksums (R195, R196). -/
theorem Instr.eq_decode_of_checksumMismatch_mem {i : Instr} (h : .checksumMismatch ∈ i.errors) : ∃ n, i = .decode n true := by
  cases i with
  | encode len => simp [Instr.errors] at h
  | encodeRandom wc => simp [Instr.errors] at h
  | decode n verify =>
    cases verify with
    | true => exact ⟨n, rfl⟩
    | false => simp [Instr.errors] at h

/-- The arm for WordIndexOutOfRange is taken by no command (R225). -/
theorem Instr.wordIndexOutOfRange_not_mem (i : Instr) : .wordIndexOutOfRange ∉ i.errors := by
  cases i with
  | encode len => simp [Instr.errors]
  | encodeRandom wc => simp [Instr.errors]
  | decode n verify => cases verify <;> simp [Instr.errors]

end Sys2Proof

namespace Sys2Proof.Machine

theorem ErrCode.code_bounds (e : ErrCode) : 1 ≤ e.code ∧ e.code ≤ 8 := by
  cases e <;> decide

/-- Each code stands for one error (R220). -/
theorem ErrCode.code_inj {e e' : ErrCode} : e.code = e'.code ↔ e = e' := by
  cases e <;> cases e' <;> decide

/-- An ERRINFO value as a number: the code in [7:0] and the position above it. -/
theorem toNat_errinfoOf (e : ErrCode) (pos : Nat) : (errinfoOf e pos).toNat = (e.code + 256 * pos) % 2 ^ 32 := by
  obtain ⟨-, h8⟩ := e.code_bounds
  rw [errinfoOf, Nat.or_comm, ← Nat.shiftLeft_add_eq_or_of_lt (by omega), BitVec.toNat_ofNat, Nat.shiftLeft_eq]
  omega

/-- ERRCODE of an error's ERRINFO, whatever its position (R231). -/
theorem errcode_errinfoOf (e : ErrCode) (pos : Nat) : field (errinfoOf e pos) 3 0 = e.code := by
  obtain ⟨-, h8⟩ := e.code_bounds
  rw [field, toNat_errinfoOf, Nat.shiftRight_zero]
  omega

/-- ERRPOS of an error's ERRINFO: the position, which has five bits (R231). -/
theorem errpos_errinfoOf (e : ErrCode) {pos : Nat} (h : pos < 32) : field (errinfoOf e pos) 12 8 = pos := by
  obtain ⟨-, h8⟩ := e.code_bounds
  rw [field, toNat_errinfoOf, Nat.shiftRight_eq_div_pow]
  omega

/-- How a command leaves ERRINFO: 0 after a success, else an error of its own list (R231, R232). -/
theorem exec_errinfo {i : Instr} {s t : State} (h : exec i s = .next t) :
    t.errinfo = 0 ∨ ∃ e ∈ i.errors, ∃ pos, t.errinfo = errinfoOf e pos := by
  cases i with
  | encode len =>
    rcases execEncode_cases len s with ⟨-, he⟩ | ⟨-, -, he⟩ | ⟨-, -, he⟩ <;>
      obtain rfl := Host.Outcome.next.inj (he.symm.trans h)
    · exact .inr ⟨.invalidEntropyLength, by simp [Instr.errors], 0, rfl⟩
    · exact .inr ⟨.wordlistUnavailable, by simp [Instr.errors], 0, rfl⟩
    · rw [encodeEntropy_eq]
      exact .inl rfl
  | encodeRandom wc =>
    rcases execEncodeRandom_cases wc s with ⟨-, he⟩ | ⟨-, -, he⟩ | ⟨-, -, s', -, he⟩ | ⟨-, -, r, s', -, he⟩ <;>
      obtain rfl := Host.Outcome.next.inj (he.symm.trans h)
    · exact .inr ⟨.invalidWordCount, by simp [Instr.errors], 0, rfl⟩
    · exact .inr ⟨.wordlistUnavailable, by simp [Instr.errors], 0, rfl⟩
    · exact .inr ⟨.randomSourceFailure, by simp [Instr.errors], 0, rfl⟩
    · rw [encodeEntropy_eq]
      exact .inl rfl
  | decode n verify =>
    rcases execDecode_cases n verify s with ⟨-, he⟩ | ⟨-, -, he⟩ | ⟨-, -, p, -, he⟩ | ⟨-, -, ix, -, he⟩ <;>
      obtain rfl := Host.Outcome.next.inj (he.symm.trans h)
    · exact .inr ⟨.invalidWordCount, by cases verify <;> simp [Instr.errors], 0, rfl⟩
    · exact .inr ⟨.wordlistUnavailable, by cases verify <;> simp [Instr.errors], 0, rfl⟩
    · exact .inr ⟨.unknownWord, by cases verify <;> simp [Instr.errors], p, rfl⟩
    · rcases decodeIndices_cases n verify ix s with ⟨rfl, -, hd⟩ | ⟨-, hd⟩ <;> rw [hd]
      · exact .inr ⟨.checksumMismatch, by simp [Instr.errors], 0, rfl⟩
      · exact .inl rfl

/-- A command that leaves the code of an error in ERRCODE can end with that error. -/
theorem mem_errors_of_errcode {i : Instr} {s t : State} {e : ErrCode} (h : exec i s = .next t)
    (hcode : t.errcode = e.code) : e ∈ i.errors := by
  obtain ⟨hpos, -⟩ := e.code_bounds
  rcases exec_errinfo h with h0 | ⟨e', hmem, pos, he⟩
  · have hzero : t.errcode = 0 := by
      rw [State.errcode, h0]
      rfl
    omega
  · rw [State.errcode, he, errcode_errinfoOf, ErrCode.code_inj] at hcode
    exact hcode ▸ hmem

/-- The words DECODE looks up stand in slot order (R190). -/
theorem slotWords_getD (s : State) {n q : Nat} (h : q < n) : (slotWords s n).getD q [] = wordAtSlot s q := by
  simp [slotWords, h]

/-- The lookup of the first n slots stops at the first word without an index, counted from 1 (R139, R194). -/
theorem lookupAll_slotWords_unknownWord {s : State} {n p : Nat} (hp : p < n)
    (hnone : indexOf s.wl (wordAtSlot s p) = none) (hknown : ∀ q < p, indexOf s.wl (wordAtSlot s q) ≠ none) :
    lookupAll s.wl (slotWords s n) = .unknownWord (p + 1) := by
  obtain ⟨-, hunknown⟩ := lookupAll_spec s.wl (slotWords s n)
  refine (hunknown (p + 1)).2 ⟨by omega, by simpa using hp, ?_, fun q hq => ?_⟩
  · rwa [Nat.add_sub_cancel, slotWords_getD s hp]
  · rw [slotWords_getD s (by omega)]
    exact hknown q (by omega)

/-- Settles O38: the lookup stops at the first unknown word, before the split and the checksum. -/
theorem unknownWordPosition : Obligations.UnknownWordPosition := by
  intro n verify s p hn hv hp hnone hknown
  obtain ⟨-, -, -, -, h24, -⟩ := supportedWords_row hn
  have hpos : field (errinfoOf .unknownWord (p + 1)) 12 8 = p + 1 := errpos_errinfoOf _ (by omega)
  exact ⟨_, execDecode_of_unknownWord hn hv (lookupAll_slotWords_unknownWord hp hnone hknown) verify, rfl,
    errcode_errinfoOf .unknownWord (p + 1), hpos, hpos.trans_le (by omega)⟩

/-- Settles O39: the received checksum is the low CS bits of the last index, and of the commands only a verifying DECODE
has ChecksumMismatch among its errors. -/
theorem checksumMismatch : Obligations.ChecksumMismatch := by
  refine ⟨?_, fun i s t h hcode => ?_⟩
  · rintro _ s ix hn hv rfl hknown hne
    have hc : (split ix).c ≠ cval (split ix).ent (csOfWords ix.length) := by rwa [split_c hn]
    have he := execDecode_of_known hn hv (lookupAll_slotWords hknown) true
    rwa [decodeIndices_of_mismatch rfl hc] at he
  · exact Instr.eq_decode_of_checksumMismatch_mem (mem_errors_of_errcode (e := .checksumMismatch) h hcode)

/-- Settles O40: the error is on no command's list. -/
theorem indexNeverOutOfRange : Obligations.IndexNeverOutOfRange :=
  ⟨fun i _ _ h hcode => i.wordIndexOutOfRange_not_mem (mem_errors_of_errcode (e := .wordIndexOutOfRange) h hcode),
    fun _ => ErrCode.code_inj (e' := .wordIndexOutOfRange)⟩

/-- Settles O41: of the two ends of an engine step, the error writes STATUS and ERRINFO alone among the registers. -/
theorem allOrNothing : Obligations.AllOrNothing := by
  intro s t h
  cases engineStep_result h with
  | success => exact ⟨rfl, ⟨rfl, rfl, rfl⟩, .inl ⟨rfl, rfl⟩⟩
  | error w script k hw =>
    obtain ⟨e, pos, rfl, -, -, hpos⟩ := hw
    have hcode := errcode_errinfoOf e pos
    obtain ⟨h1, h8⟩ := e.code_bounds
    exact ⟨rfl, ⟨rfl, rfl, rfl⟩, .inr ⟨rfl, h1.trans_eq hcode.symm, hcode.trans_le h8, ⟨rfl, rfl, rfl, rfl, rfl⟩,
      e, pos, rfl, hpos⟩⟩

end Sys2Proof.Machine
end

section
/-!
Reset (70_reset R260, R261, R262, R264): what a step does whose event is a reset.
-/

namespace Sys2Proof.Machine

theorem takeInput_reset (s : State) : takeInput .reset s = .next (resetRegisters s) := rfl

/-- A step whose event is a reset resets the registers, whatever BUSY is (R261). -/
theorem step_of_reset {s : State} {rest : List Input} (h : s.inputs = .reset :: rest) :
    step s = .next (resetRegisters { s with inputs := rest }) :=
  (step_of_input h).trans (takeInput_reset _)

/-- A reset draws nothing. -/
theorem nothingDrawn_resetRegisters (s : State) : NothingDrawn s (resetRegisters s) :=
  ⟨resetRegisters_rngScript s, resetRegisters_draws s⟩

/-- A reset keeps the fields that are no registers (R264). -/
theorem sameEnvironment_resetRegisters (s : State) : SameEnvironment s (resetRegisters s) :=
  ⟨resetRegisters_wl s, resetRegisters_inputs s, resetRegisters_responses s⟩

/-- Settles O2: the step is the reset of the registers once its event is taken off the list, and that reset zeroes every
register and keeps all else. -/
theorem resetEvent : Obligations.ResetEvent := by
  intro s rest hin
  obtain ⟨hwl, hinputs, hresponses⟩ := sameEnvironment_resetRegisters { s with inputs := rest }
  exact ⟨_, step_of_reset hin, registersZero_resetRegisters _, hwl, hinputs, hresponses,
    nothingDrawn_resetRegisters { s with inputs := rest }⟩

end Sys2Proof.Machine
end
